-- ==== Sys2Proof/Config.lean ====
section
/-! DEFINITION. The parameters of the hardware, each named as a constant (00_scope.md R5), and the one free value of the
spec, the random byte of `CXNN` (40_cycle_and_tick.md R133). The widths and counts are the ones the types of Word.lean and
Machine/State.lean are built from. -/

namespace Sys2Proof.Config

/-! ### Widths and counts -/

/-- `NREGS`: the number of general registers (R5). -/
@[simp] abbrev nRegs : Nat := 16

/-- `REG_BITS`: the width of a general register (R5). -/
@[simp] abbrev regBits : Nat := 8

/-- `I_BITS`: the width of `I` (R5). -/
@[simp] abbrev iBits : Nat := 16

/-- `PC_BITS`: the width of `pc` (R5). -/
@[simp] abbrev pcBits : Nat := 16

/-- `SP_BITS`: the width of `sp` (R5). -/
@[simp] abbrev spBits : Nat := 16

/-- `TIMER_BITS`: the width of `DT` and `ST` (R5). -/
@[simp] abbrev timerBits : Nat := 8

/-- `NKEYS`: the number of keys and the width of `keys` (R5). -/
@[simp] abbrev nKeys : Nat := 16

/-- `DISP_COLS`: the number of display columns and the width of a row (R5). -/
@[simp] abbrev dispCols : Nat := 64

/-- `DISP_ROWS`: the number of display rows (R5). -/
@[simp] abbrev dispRows : Nat := 32

/-- `TICK_HZ`: the intended ticks per second; no rule and no definition depends on it (R5). -/
abbrev tickHz : Nat := 60

/-- `FLAG_REG`: the index of the flag register (R5, R22). -/
abbrev flagReg : Fin nRegs := 15

/-! ### Memory -/

/-- `MEM_SIZE`: the number of bytes of memory (R5). -/
@[simp] abbrev memSize : Nat := 4096

/-- `FONT_BASE`: the address of the first font byte (R5). -/
@[simp] abbrev fontBase : Nat := 0

/-- `GLYPH_BYTES`: bytes per glyph (R5). -/
@[simp] abbrev glyphBytes : Nat := 5

/-- `FONT_BYTES`: 16 glyphs of `GLYPH_BYTES` bytes (R5). -/
@[simp] abbrev fontBytes : Nat := 80

/-- `PROG_BASE`: the address of the first program byte and the reset value of `pc` (R5). -/
abbrev progBase : BitVec pcBits := 0x200

/-- `MAX_PROG_BYTES`: `MEM_SIZE - PROG_BASE`, the longest image reset accepts (R5, R301, decision D8: log 11). -/
@[simp] abbrev maxProgBytes : Nat := 3584

/-- `MEM_FILL`: the reset value of a byte that neither the font nor the program covers (R5, decision D7: log 3). -/
def memFill : BitVec 8 := 0x00

/-! ### The stack -/

/-- `STACK_BASE`: the reset value of `sp`, just above the first slot (R5, R26). -/
abbrev stackBase : BitVec spBits := 0xF00

/-- `STACK_DEPTH`: the deepest call nesting the document defines (R5, R27). -/
@[simp] abbrev stackDepth : Nat := 128

/-- `STACK_LIMIT`: `STACK_BASE - 2 * STACK_DEPTH`, the lowest value `sp` may take (R5, decision D3: log 8). -/
abbrev stackLimit : BitVec spBits := 0xE00

/-! ### The font -/

/-- `FONT` digits 0 to 7 (R33). PRESUMED: the spec takes the bytes from general knowledge (D9, log 4). -/
def fontLow : List (BitVec 8) :=
  [0xF0, 0x90, 0x90, 0x90, 0xF0] ++ [0x20, 0x60, 0x20, 0x20, 0x70] ++
  [0xF0, 0x10, 0xF0, 0x80, 0xF0] ++ [0xF0, 0x10, 0xF0, 0x10, 0xF0] ++
  [0x90, 0x90, 0xF0, 0x10, 0x10] ++ [0xF0, 0x80, 0xF0, 0x10, 0xF0] ++
  [0xF0, 0x80, 0xF0, 0x90, 0xF0] ++ [0xF0, 0x10, 0x20, 0x40, 0x40]

/-- `FONT` digits 8 to F (R33). PRESUMED: the spec takes the bytes from general knowledge (D9, log 4). -/
def fontHigh : List (BitVec 8) :=
  [0xF0, 0x90, 0xF0, 0x90, 0xF0] ++ [0xF0, 0x90, 0xF0, 0x10, 0xF0] ++
  [0xF0, 0x90, 0xF0, 0x90, 0x90] ++ [0xE0, 0x90, 0xE0, 0x90, 0xE0] ++
  [0xF0, 0x80, 0x80, 0x80, 0xF0] ++ [0xE0, 0x90, 0x90, 0x90, 0xE0] ++
  [0xF0, 0x80, 0xF0, 0x80, 0xF0] ++ [0xF0, 0x80, 0xF0, 0x80, 0x80]

/-- `FONT`: the 80 font bytes in address order (R33). -/
def font : List (BitVec 8) := fontLow ++ fontHigh

/-! ### The random source -/

/-- The `n`-th byte that stream `k` of the external random source supplies, `draw8()` (R133, decision D6). FREE VALUE: it
has no body, so nothing can be proved of it, and a claim holds for every sequence of bytes in every stream; two streams
have nothing in common (R318, log 5). -/
opaque randomByte (k n : Nat) : BitVec regBits

end Sys2Proof.Config
end

