-- ==== Sys2Proof/Word.lean ====
section
/-! DEFINITION. The word types of the CHIP-8 engine (00_scope.md R5, R7, R8; 30_encoding.md R91). Bit 0 of every value
is its least significant bit (R7). -/

namespace Sys2Proof

/-- A memory byte (R31), or a register or timer, whose widths `REG_BITS` and `TIMER_BITS` are 8 too (R5). -/
abbrev Byte := BitVec 8

/-- A 16-bit value: an instruction word (R90), or `I`, `pc`, `sp` or `keys`, whose widths are 16 too (R5). -/
abbrev Word := BitVec 16

/-- A 12-bit literal `NNN` (R91). -/
abbrev Literal12 := BitVec 12

/-- A 4-bit field of an instruction word: a nibble, or the literal `N` (R91). -/
abbrev Nibble := BitVec 4

/-- One display row: bit `63 - x` is the pixel of column `x` (10_state.md R32). -/
abbrev Row := BitVec Config.dispCols

/-- A register field of an instruction word, 4 bits wide: its 16 values are the indices of the `NREGS` general registers,
all of them valid (10_state.md R21, R93). -/
abbrev Reg := Fin 16

end Sys2Proof
end

