-- ==== Sys2Proof/Syntax.lean ====
section
/-! DEFINITION. The instructions: one constructor per row of spec/opcode_table.json, in its order (30_encoding.md R96).
Register fields are indices 0 to 15 and literals have the width of their field (R91, R93), so a field cannot be out of
range. -/

namespace Sys2Proof

/-- The 35 instructions (R96). -/
inductive Instr where
  /-- `00E0`: clear the display (R220). -/
  | cls
  /-- `00EE`: return from a call (R151). -/
  | ret
  /-- `0NNN`: no operation (R150). -/
  | sys (nnn : Literal12)
  /-- `1NNN`: jump (R152). -/
  | jp (nnn : Literal12)
  /-- `2NNN`: call (R153). -/
  | call (nnn : Literal12)
  /-- `3XNN`: skip if `V[X] == NN` (R155). -/
  | seImm (x : Reg) (nn : Byte)
  /-- `4XNN`: skip if `V[X] != NN` (R156). -/
  | sneImm (x : Reg) (nn : Byte)
  /-- `5XY0`: skip if `V[X] == V[Y]` (R157). -/
  | seReg (x y : Reg)
  /-- `6XNN`: load literal (R170). -/
  | ldImm (x : Reg) (nn : Byte)
  /-- `7XNN`: add literal, no flag (R171). -/
  | addImm (x : Reg) (nn : Byte)
  /-- `8XY0`: copy register (R172). -/
  | ldReg (x y : Reg)
  /-- `8XY1`: bitwise OR (R173). -/
  | orReg (x y : Reg)
  /-- `8XY2`: bitwise AND (R174). -/
  | andReg (x y : Reg)
  /-- `8XY3`: bitwise exclusive OR (R175). -/
  | xorReg (x y : Reg)
  /-- `8XY4`: add, carry to `V[15]` (R176). -/
  | addReg (x y : Reg)
  /-- `8XY5`: `V[X] - V[Y]`, not-borrow to `V[15]` (R177). -/
  | subReg (x y : Reg)
  /-- `8XY6`: shift `V[X]` right by one; `Y` is encoded and ignored (R178, R99). -/
  | shr (x y : Reg)
  /-- `8XY7`: `V[Y] - V[X]`, not-borrow to `V[15]` (R179). -/
  | subnReg (x y : Reg)
  /-- `8XYE`: shift `V[X]` left by one; `Y` is encoded and ignored (R180, R99). -/
  | shl (x y : Reg)
  /-- `9XY0`: skip if `V[X] != V[Y]` (R158). -/
  | sneReg (x y : Reg)
  /-- `ANNN`: load the index register (R200). -/
  | ldI (nnn : Literal12)
  /-- `BNNN`: jump to `V[0] + NNN` (R154). -/
  | jpV0 (nnn : Literal12)
  /-- `CXNN`: random byte under mask (R181). -/
  | rnd (x : Reg) (nn : Byte)
  /-- `DXYN`: draw a sprite of `N` rows (R221). -/
  | drw (x y : Reg) (n : Nibble)
  /-- `EX9E`: skip if the key is down (R240). -/
  | skp (x : Reg)
  /-- `EXA1`: skip if the key is not down (R241). -/
  | sknp (x : Reg)
  /-- `FX07`: read the delay timer (R243). -/
  | ldVxDT (x : Reg)
  /-- `FX0A`: wait for a key (R242). -/
  | ldVxK (x : Reg)
  /-- `FX15`: set the delay timer (R244). -/
  | ldDTVx (x : Reg)
  /-- `FX18`: set the sound timer (R245). -/
  | ldSTVx (x : Reg)
  /-- `FX1E`: add a register to `I` (R201). -/
  | addI (x : Reg)
  /-- `FX29`: point `I` at a font glyph (R202). -/
  | ldF (x : Reg)
  /-- `FX33`: store three decimal digits (R203). -/
  | ldB (x : Reg)
  /-- `FX55`: store `V[0]` to `V[X]` (R204). -/
  | storeRegs (x : Reg)
  /-- `FX65`: load `V[0]` to `V[X]` (R205). -/
  | loadRegs (x : Reg)
  deriving DecidableEq, Repr

end Sys2Proof
end

