-- ==== Sys2Proof/WellFormed.lean ====
section
/-! DEFINITION. Which instruction terms have a word of their own. The types of `Instr` already bound every field
(30_encoding.md R93), so one check is left: `SYS nnn` must not be written with `nnn` 0x0E0 or 0x0EE, because those words
are `CLS` and `RET` (R101, R94). -/

namespace Sys2Proof

/-- The literal of a `SYS` is neither 0x0E0 nor 0x0EE (R101). -/
def sysLiteralOk (nnn : Literal12) : Bool := nnn != 0x0E0 && nnn != 0x0EE

/-- The instruction is one that its word decodes to (R94, R101). -/
def Instr.wellFormed : Instr → Bool
  | .sys nnn => sysLiteralOk nnn
  | .cls | .ret | .jp _ | .call _ | .seImm _ _ | .sneImm _ _ | .seReg _ _ | .ldImm _ _ | .addImm _ _ | .ldReg _ _
  | .orReg _ _ | .andReg _ _ | .xorReg _ _ | .addReg _ _ | .subReg _ _ | .shr _ _ | .subnReg _ _ | .shl _ _
  | .sneReg _ _ | .ldI _ | .jpV0 _ | .rnd _ _ | .drw _ _ _ | .skp _ | .sknp _ | .ldVxDT _ | .ldVxK _ | .ldDTVx _
  | .ldSTVx _ | .addI _ | .ldF _ | .ldB _ | .storeRegs _ | .loadRegs _ => true

end Sys2Proof
end

