-- ==== Sys2Proof/Decode.lean ====
section
/-! DEFINITION. From bytes to instructions and back (30_encoding.md). The decoder follows R94 line by line, is total and
rejects by name; the encoder assembles a word format by format (R92, R101); `encMask` and `encMatch` are the two columns of
the opcode map R96. -/

namespace Sys2Proof

/-- Why bytes are no instruction. -/
inductive DecodeError where
  /-- Fewer than the two bytes of an instruction word are given (R90). -/
  | truncated
  /-- The word matches no row of R96: one of the 17488 words of R97. The engine goes on past it (R262). -/
  | unrecognized (w : Word)
  deriving DecidableEq, Repr

/-- The word of two consecutive bytes, the byte at the lower address first: big-endian (20_memory.md R60). -/
def wordOfBytes (hi lo : Byte) : Word := hi ++ lo

/-- Bits 15 to 8 of a word: the byte at the lower address (R60). -/
def highByte (w : Word) : Byte := w.extractLsb' 8 8

/-- Bits 7 to 0 of a word: the byte at the higher address (R60). -/
def lowByte (w : Word) : Byte := w.extractLsb' 0 8

/-- `n0 = w[15:12]`, the major opcode (R91). -/
def majorOf (w : Word) : Nibble := w.extractLsb' 12 4

/-- `X = w[11:8]` (R91). -/
def xOf (w : Word) : Reg := (w.extractLsb' 8 4).toFin

/-- `Y = w[7:4]` (R91). -/
def yOf (w : Word) : Reg := (w.extractLsb' 4 4).toFin

/-- `N = w[3:0]` (R91). -/
def nOf (w : Word) : Nibble := w.extractLsb' 0 4

/-- `NN = w[7:0]` (R91). -/
def nnOf (w : Word) : Byte := w.extractLsb' 0 8

/-- `NNN = w[11:0]` (R91). -/
def nnnOf (w : Word) : Literal12 := w.extractLsb' 0 12

/-- The `8XY?` line of R94: the minor opcode is the low nibble. -/
def decodeAlu (x y : Reg) (n : Nibble) : Option Instr :=
  if n = 0x0 then some (.ldReg x y)
  else if n = 0x1 then some (.orReg x y)
  else if n = 0x2 then some (.andReg x y)
  else if n = 0x3 then some (.xorReg x y)
  else if n = 0x4 then some (.addReg x y)
  else if n = 0x5 then some (.subReg x y)
  else if n = 0x6 then some (.shr x y)
  else if n = 0x7 then some (.subnReg x y)
  else if n = 0xE then some (.shl x y)
  else none

/-- The two `EX??` lines of R94: the minor opcode is the low byte. -/
def decodeKey (x : Reg) (nn : Byte) : Option Instr :=
  if nn = 0x9E then some (.skp x)
  else if nn = 0xA1 then some (.sknp x)
  else none

/-- The `FX??` line of R94: the minor opcode is the low byte. -/
def decodeMisc (x : Reg) (nn : Byte) : Option Instr :=
  if nn = 0x07 then some (.ldVxDT x)
  else if nn = 0x0A then some (.ldVxK x)
  else if nn = 0x15 then some (.ldDTVx x)
  else if nn = 0x18 then some (.ldSTVx x)
  else if nn = 0x1E then some (.addI x)
  else if nn = 0x29 then some (.ldF x)
  else if nn = 0x33 then some (.ldB x)
  else if nn = 0x55 then some (.storeRegs x)
  else if nn = 0x65 then some (.loadRegs x)
  else none

/-- The instruction of a word, by the major opcode (R94); `none` is an unrecognized word. -/
def instrOfWord (w : Word) : Option Instr :=
  if w = 0x00E0 then some .cls
  else if w = 0x00EE then some .ret
  else if majorOf w = 0x0 then some (.sys (nnnOf w))
  else if majorOf w = 0x1 then some (.jp (nnnOf w))
  else if majorOf w = 0x2 then some (.call (nnnOf w))
  else if majorOf w = 0x3 then some (.seImm (xOf w) (nnOf w))
  else if majorOf w = 0x4 then some (.sneImm (xOf w) (nnOf w))
  else if majorOf w = 0x5 then (if nOf w = 0x0 then some (.seReg (xOf w) (yOf w)) else none)
  else if majorOf w = 0x6 then some (.ldImm (xOf w) (nnOf w))
  else if majorOf w = 0x7 then some (.addImm (xOf w) (nnOf w))
  else if majorOf w = 0x8 then decodeAlu (xOf w) (yOf w) (nOf w)
  else if majorOf w = 0x9 then (if nOf w = 0x0 then some (.sneReg (xOf w) (yOf w)) else none)
  else if majorOf w = 0xA then some (.ldI (nnnOf w))
  else if majorOf w = 0xB then some (.jpV0 (nnnOf w))
  else if majorOf w = 0xC then some (.rnd (xOf w) (nnOf w))
  else if majorOf w = 0xD then some (.drw (xOf w) (yOf w) (nOf w))
  else if majorOf w = 0xE then decodeKey (xOf w) (nnOf w)
  else decodeMisc (xOf w) (nnOf w)

/-- `decode(w)` of R94: the word's instruction, or the word rejected by name (R95, R97). -/
def decodeWord (w : Word) : Except DecodeError Instr :=
  match instrOfWord w with
  | some i => .ok i
  | none => .error (.unrecognized w)

/-- The instruction at the head of a list of bytes and the bytes after it: every instruction is two bytes (R90). -/
def decodeBytes : List Byte → Except DecodeError (Instr × List Byte)
  | hi :: lo :: rest =>
    match decodeWord (wordOfBytes hi lo) with
    | .ok i => .ok (i, rest)
    | .error e => .error e
  | [_] => .error .truncated
  | [] => .error .truncated

/-- The two bytes of an instruction word as memory holds them, high byte first (R60, R90). -/
def bytesOfWord (w : Word) : List Byte := [highByte w, lowByte w]

/-- The word whose low `nbits` bits are those of `w`, every bit above them 0. -/
def tableWord (nbits w : Nat) : Word := BitVec.ofNat 16 (w % 2 ^ nbits)

/-- What the decoder reads from the instruction whose bits, numbered as spec/opcode_table.json numbers them, are `w`
(bit 0 is the least significant bit of the 16-bit word). No row has more than 16 bits. -/
def decodeTableWord (nbits w : Nat) : Option Instr :=
  if nbits ≤ 16 then
    match decodeBytes (bytesOfWord (tableWord nbits w)) with
    | .ok (i, _) => some i
    | .error _ => none
  else none

/-! ### The encoder -/

/-- A register index as its 4-bit field (R91). -/
def regField (x : Reg) : Nibble := BitVec.ofFin x

/-- Format `NNN`: major opcode and 12-bit literal (R92). -/
def formatNNN (major : Nibble) (nnn : Literal12) : Word := major ++ nnn

/-- Format `XNN`: major opcode, register, 8-bit literal; also format `X`, whose low byte is the minor opcode (R92). -/
def formatXNN (major : Nibble) (x : Reg) (nn : Byte) : Word := major ++ (regField x ++ nn : Literal12)

/-- Format `XYN`: major opcode, two registers, 4-bit literal; also format `XY`, whose low nibble is the minor opcode
(R92). -/
def formatXYN (major : Nibble) (x y : Reg) (n : Nibble) : Word :=
  major ++ (regField x ++ (regField y ++ n : Byte) : Literal12)

/-- The word of an instruction (R96, R101). -/
def encode : Instr → Word
  | .cls => 0x00E0
  | .ret => 0x00EE
  | .sys nnn => formatNNN 0x0 nnn
  | .jp nnn => formatNNN 0x1 nnn
  | .call nnn => formatNNN 0x2 nnn
  | .seImm x nn => formatXNN 0x3 x nn
  | .sneImm x nn => formatXNN 0x4 x nn
  | .seReg x y => formatXYN 0x5 x y 0x0
  | .ldImm x nn => formatXNN 0x6 x nn
  | .addImm x nn => formatXNN 0x7 x nn
  | .ldReg x y => formatXYN 0x8 x y 0x0
  | .orReg x y => formatXYN 0x8 x y 0x1
  | .andReg x y => formatXYN 0x8 x y 0x2
  | .xorReg x y => formatXYN 0x8 x y 0x3
  | .addReg x y => formatXYN 0x8 x y 0x4
  | .subReg x y => formatXYN 0x8 x y 0x5
  | .shr x y => formatXYN 0x8 x y 0x6
  | .subnReg x y => formatXYN 0x8 x y 0x7
  | .shl x y => formatXYN 0x8 x y 0xE
  | .sneReg x y => formatXYN 0x9 x y 0x0
  | .ldI nnn => formatNNN 0xA nnn
  | .jpV0 nnn => formatNNN 0xB nnn
  | .rnd x nn => formatXNN 0xC x nn
  | .drw x y n => formatXYN 0xD x y n
  | .skp x => formatXNN 0xE x 0x9E
  | .sknp x => formatXNN 0xE x 0xA1
  | .ldVxDT x => formatXNN 0xF x 0x07
  | .ldVxK x => formatXNN 0xF x 0x0A
  | .ldDTVx x => formatXNN 0xF x 0x15
  | .ldSTVx x => formatXNN 0xF x 0x18
  | .addI x => formatXNN 0xF x 0x1E
  | .ldF x => formatXNN 0xF x 0x29
  | .ldB x => formatXNN 0xF x 0x33
  | .storeRegs x => formatXNN 0xF x 0x55
  | .loadRegs x => formatXNN 0xF x 0x65

/-! ### The opcode map R96 -/

/-- The "mask" column of R96: which bits of the word are fixed. -/
def Instr.encMask : Instr → Word
  | .cls | .ret => 0xFFFF
  | .sys _ | .jp _ | .call _ | .seImm _ _ | .sneImm _ _ | .ldImm _ _ | .addImm _ _ | .ldI _ | .jpV0 _ | .rnd _ _
  | .drw _ _ _ => 0xF000
  | .seReg _ _ | .ldReg _ _ | .orReg _ _ | .andReg _ _ | .xorReg _ _ | .addReg _ _ | .subReg _ _ | .shr _ _
  | .subnReg _ _ | .shl _ _ | .sneReg _ _ => 0xF00F
  | .skp _ | .sknp _ | .ldVxDT _ | .ldVxK _ | .ldDTVx _ | .ldSTVx _ | .addI _ | .ldF _ | .ldB _ | .storeRegs _
  | .loadRegs _ => 0xF0FF

/-- The "match" column of R96: the values of the fixed bits. -/
def Instr.encMatch : Instr → Word
  | .cls => 0x00E0
  | .ret => 0x00EE
  | .sys _ => 0x0000
  | .jp _ => 0x1000
  | .call _ => 0x2000
  | .seImm _ _ => 0x3000
  | .sneImm _ _ => 0x4000
  | .seReg _ _ => 0x5000
  | .ldImm _ _ => 0x6000
  | .addImm _ _ => 0x7000
  | .ldReg _ _ => 0x8000
  | .orReg _ _ => 0x8001
  | .andReg _ _ => 0x8002
  | .xorReg _ _ => 0x8003
  | .addReg _ _ => 0x8004
  | .subReg _ _ => 0x8005
  | .shr _ _ => 0x8006
  | .subnReg _ _ => 0x8007
  | .shl _ _ => 0x800E
  | .sneReg _ _ => 0x9000
  | .ldI _ => 0xA000
  | .jpV0 _ => 0xB000
  | .rnd _ _ => 0xC000
  | .drw _ _ _ => 0xD000
  | .skp _ => 0xE09E
  | .sknp _ => 0xE0A1
  | .ldVxDT _ => 0xF007
  | .ldVxK _ => 0xF00A
  | .ldDTVx _ => 0xF015
  | .ldSTVx _ => 0xF018
  | .addI _ => 0xF01E
  | .ldF _ => 0xF029
  | .ldB _ => 0xF033
  | .storeRegs _ => 0xF055
  | .loadRegs _ => 0xF065

end Sys2Proof
end

