-- ==== Sys2Proof/Machine/State.lean ====
section
/-! DEFINITION. The state as plain data: `Engine` is the ten items of 10_state.md R20 under the spec's names, `State` the
engine beside the external random source. `State.reset` is the state after reset with an empty program (R37). -/

namespace Sys2Proof.Machine

/-- The causes of the fault latch (60_exceptions.md R265). Each is raised inside a cycle and LATCHED in `State.fault` by
fault entry (R266): the step then answers a next state, so no step of this model answers `Outcome.fault`. Safe: the
latched state says nothing of what the original does in a case its document leaves undefined (R264, log 2). -/
inductive Fault where
  /-- Raised by the fetch of a cycle when `pc > 4094` (R267). Safe. -/
  | fetchOutOfBounds
  /-- Raised by `DXYN`, `FX33`, `FX55`, `FX65` whose footprint passes address 4095 (R268). Safe. -/
  | dataOutOfBounds
  /-- Raised by `2NNN` at depth 128 (R269). Safe. -/
  | stackOverflow
  /-- Raised by `00EE` at depth 0 (R270). Safe. -/
  | stackUnderflow
  /-- Raised by `EX9E` and `EXA1` when `V[X] > 15` (R273). Safe. -/
  | keyIndexOutOfRange
  deriving DecidableEq, Repr

/-- What the model gives no result for. -/
inductive Refusal where
  /-- Raised by an arm of `exec` whose instruction has no meaning yet; no arm is such. Safe. -/
  | notModelled (mnemonic : String)
  /-- Raised by `construct` for an image of more than 3584 bytes: the spec gives it no resulting state (R301, D8).
  Safe. -/
  | oversizedImage (length : Nat)
  deriving DecidableEq, Repr

/-- The contents of the fault latch (R34): the cause, the address of the faulting instruction and a 17-bit detail. -/
structure FaultRecord where
  cause : Fault
  faultPc : Word
  faultInfo : BitVec 17
  deriving DecidableEq, Repr

/-- Memory as (address, byte) pairs, addresses rising, listing only bytes that differ from the reset content of their
address (log 3). Read and written through Machine/Ops.lean alone. -/
abbrev Memory := List Host.Cell

/-- THE ENGINE'S STATE: the ten items of R20 and nothing else. -/
structure Engine where
  /-- `mem`: 4096 bytes (R31). -/
  mem : Memory
  /-- `V[0]` to `V[15]`; `V[15]` is the flag register (R21, R22). -/
  V : Vector (BitVec Config.regBits) Config.nRegs
  /-- `I`: the index register (R25). -/
  I : BitVec Config.iBits
  /-- `pc`: the program counter (R23). -/
  pc : BitVec Config.pcBits
  /-- `sp`: the stack pointer (R26). -/
  sp : BitVec Config.spBits
  /-- `DT`: the delay timer (R28). -/
  DT : BitVec Config.timerBits
  /-- `ST`: the sound timer (R29). -/
  ST : BitVec Config.timerBits
  /-- `keys`: bit `k` is 1 when key `k` is down (R30). -/
  keys : BitVec Config.nKeys
  /-- `disp[0]` to `disp[31]`: bit `63 - x` of row `y` is pixel `(x, y)` (R32). -/
  disp : Vector Row Config.dispRows
  /-- `fault`: the fault latch (R34). -/
  fault : Option FaultRecord
  deriving DecidableEq, Repr

/-- Where the host's random source stands: which stream of bytes it supplies and how many of them have been drawn. It is
outside the engine (R36, R133); the model's own data (log 5). -/
structure RandomSource where
  stream : Nat
  drawn : Nat
  deriving DecidableEq, Repr

/-- What a step takes and gives: the engine's state, and beside it the external random source it draws from, because
`Host.Core` gives a step one argument (log 5). No instruction but `CXNN` reads or moves the source. -/
structure State extends Engine where
  source : RandomSource
  deriving DecidableEq, Repr

/-- The engine after reset with the empty program (R37 with `L = 0`). -/
def Engine.reset : Engine where
  mem := []
  V := Vector.replicate Config.nRegs 0
  I := 0
  pc := Config.progBase
  sp := Config.stackBase
  DT := 0
  ST := 0
  keys := 0
  disp := Vector.replicate Config.dispRows 0
  fault := none

/-- The engine after reset with the empty program, with stream 0 of the random source: DESIGN CHOICE, the spec gives the
source no reset value, and nothing is stated of that stream (log 5). -/
def State.reset : State := { Engine.reset with source := { stream := 0, drawn := 0 } }

end Sys2Proof.Machine
end

