-- ==== Sys2Proof/Machine/Ops.lean ====
section
/-! DEFINITION. The named operations over memory and registers (20_memory.md, 10_state.md), fault entry as one shared
operation (60_exceptions.md R266) and reset beside it, the only way out of a fault (R277). -/

namespace Sys2Proof.Machine

/-! ### Memory -/

/-- What an unlisted address reads as: its reset content, the font at 0 to 79 and `MEM_FILL` elsewhere (R70, log 3). -/
def Memory.unlisted (a : Nat) : Byte :=
  if Config.fontBase ≤ a ∧ a < Config.fontBase + Config.fontBytes then
    Config.font.getD (a - Config.fontBase) Config.memFill
  else Config.memFill

/-- The byte at an address (R63). -/
def Memory.read : Memory → Nat → Byte
  | [], a => Memory.unlisted a
  | (k, b) :: rest, a => if a = k then b else Memory.read rest a

/-- The pairs at other addresses than `a`. -/
def Memory.without (m : Memory) (a : Nat) : Memory := m.filter fun c => c.1 != a

/-- A pair put before the first higher address. -/
def Memory.place (c : Host.Cell) : Memory → Memory
  | [] => [c]
  | d :: rest => if c.1 < d.1 then c :: d :: rest else d :: Memory.place c rest

/-- The byte at one address replaced (R64). A byte equal to the reset content of its address is not listed. -/
def Memory.write (m : Memory) (a : Nat) (b : Byte) : Memory :=
  if b = Memory.unlisted a then m.without a else Memory.place (a, b) (m.without a)

/-- Bytes written from an address up, the first at the lowest (R60). -/
def Memory.writes : Memory → Nat → List Byte → Memory
  | m, _, [] => m
  | m, a, b :: bs => Memory.writes (m.write a b) (a + 1) bs

/-- `n` bytes read from an address up (R60). -/
def Memory.reads (m : Memory) : Nat → Nat → List Byte
  | _, 0 => []
  | a, n + 1 => m.read a :: Memory.reads m (a + 1) n

/-- The canonical form: addresses strictly rising and below 4096, and no pair equal to what its address reads as
unlisted. -/
abbrev Memory.wf (m : Memory) : Prop :=
  m.Pairwise (fun c d => c.1 < d.1) ∧ ∀ c ∈ m, c.1 < Config.memSize ∧ c.2 ≠ Memory.unlisted c.1

/-! ### Access to the state -/

/-- `V[x]` (R10, R21). -/
def State.getV (s : State) (x : Reg) : Byte := s.V[x.val]

/-- `V[x] <- b` (R10, R21). -/
def State.setV (s : State) (x : Reg) (b : Byte) : State := { s with V := s.V.set x.val b }

/-- `mem[a]` (R63). -/
def State.byteAt (s : State) (a : Nat) : Byte := s.mem.read a

/-- `mem` replaced. -/
def State.setMem (s : State) (m : Memory) : State := { s with mem := m }

/-- `I <- w`. -/
def State.setI (s : State) (w : Word) : State := { s with I := w }

/-- `pc <- w`. -/
def State.setPc (s : State) (w : Word) : State := { s with pc := w }

/-- `sp <- w`. -/
def State.setSp (s : State) (w : Word) : State := { s with sp := w }

/-- `DT <- b`. -/
def State.setDT (s : State) (b : Byte) : State := { s with DT := b }

/-- `ST <- b`. -/
def State.setST (s : State) (b : Byte) : State := { s with ST := b }

/-- `keys <- w` (R129). -/
def State.setKeys (s : State) (w : Word) : State := { s with keys := w }

/-- `disp` replaced. -/
def State.setDisp (s : State) (d : Vector Row Config.dispRows) : State := { s with disp := d }

/-- `draw8()`: the byte the source supplies next (R133). -/
def State.nextRandom (s : State) : Byte := Config.randomByte s.source.stream s.source.drawn

/-- One more byte of the source's stream has been drawn (R133). -/
def State.countDraw (s : State) : State := { s with source := { s.source with drawn := s.source.drawn + 1 } }

/-- Step 3 of a cycle: `pc <- (pc + 2) mod 65536` (40_cycle_and_tick.md R123). -/
def State.advance (s : State) : State := s.setPc (s.pc + 2)

/-- `skip`: 2 more added to the advanced `pc` (R10). -/
def State.skip (s : State) : State := s.setPc (s.pc + 2)

/-- `skip` when the condition holds. -/
def State.skipIf (s : State) (c : Bool) : State := if c then s.skip else s

/-- The pixel of column `x`, row `y`: bit `63 - x` of `disp[y]`, for `x < 64` and `y < 32` (R32). -/
def State.pixel (s : State) (x y : Nat) : Bool := 
  if h : y < Config.dispRows then s.disp[y].getLsbD (Config.dispCols - 1 - x) else false

/-! ### Faults -/

/-- A fault being raised: `raise F(info)` of R10. -/
structure Raise where
  cause : Fault
  info : BitVec 17
  deriving DecidableEq, Repr

/-- The code of a cause (R265). -/
def Fault.code : Fault → Byte
  | .fetchOutOfBounds => 0x01
  | .dataOutOfBounds => 0x02
  | .stackOverflow => 0x03
  | .stackUnderflow => 0x04
  | .keyIndexOutOfRange => 0x05

/-- FAULT ENTRY (R266): `s` is the state at the start of the cycle, which is kept whole, `pc` included; only the latch is
set, with the address of the faulting instruction. -/
def takeFault (s : State) (r : Raise) : State :=
  { s with fault := some { cause := r.cause, faultPc := s.pc, faultInfo := r.info } }

/-- The cycle of a decoded instruction from the state at its start: the advance, then the body (R120, R123); if the body
raises, none of it is kept (R125). -/
def runBody (body : State → Except Raise State) (s : State) : Host.Outcome State Fault Refusal :=
  match body s.advance with
  | .ok t => .next t
  | .error r => .next (takeFault s r)

/-- The cycle of an instruction whose body cannot raise. -/
def runPlain (body : State → State) (s : State) : Host.Outcome State Fault Refusal :=
  runBody (fun t => .ok (body t)) s

/-- The cycle of an unrecognized word: the advance alone (R262); its event is `diagnostic?` in Machine/Tick.lean. -/
def runUnrecognized (s : State) : Host.Outcome State Fault Refusal := .next s.advance

/-! ### The memory primitives of R62 to R66 -/

/-- The bound check of an access to the `n` bytes from `a` up: it raises with the lowest invalid address of the
footprint, `max(a, 4096)` (R66, R268); an access to no byte cannot raise (R221, decision D13: log 9). -/
def guardFootprint {α : Type} (a n : Nat) (result : α) : Except Raise α :=
  if n = 0 ∨ a + n - 1 < Config.memSize then .ok result
  else .error { cause := .dataOutOfBounds, info := BitVec.ofNat 17 (max a Config.memSize) }

/-- `MemRead` of `n` single bytes from `a` up, checked before any is read (R63, R66). -/
def State.loadBytes (s : State) (a n : Nat) : Except Raise (List Byte) := guardFootprint a n (s.mem.reads a n)

/-- `MemRead(a, 2)`: two bytes, big-endian (R65). -/
def State.loadWord (s : State) (a : Nat) : Except Raise Word :=
  guardFootprint a 2 (wordOfBytes (s.byteAt a) (s.byteAt (a + 1)))

/-- `MemWrite` of single bytes from `a` up, checked before any is stored (R64, R66). -/
def State.storeBytes (s : State) (a : Nat) (bs : List Byte) : Except Raise State :=
  guardFootprint a bs.length (s.setMem (s.mem.writes a bs))

/-- `MemWrite(a, 2, w)`: two bytes, big-endian (R65). -/
def State.storeWord (s : State) (a : Nat) (w : Word) : Except Raise State := s.storeBytes a (bytesOfWord w)

/-- `Fetch(pc)`: the word at `pc`, or `FetchOutOfBounds(pc)` when `pc > 4094` (R62, R267). -/
def fetch (s : State) : Except Raise Word :=
  if Config.memSize < s.pc.toNat + 2 then .error { cause := .fetchOutOfBounds, info := s.pc.setWidth 17 }
  else .ok (wordOfBytes (s.byteAt s.pc.toNat) (s.byteAt (s.pc.toNat + 1)))

/-! ### Reset -/

/-- RESET, the only way out of a fault (R277): `Construct(program_bytes)` (70_reset_and_hazards.md R300, R37). The image
is stored at 512; one of more than 3584 bytes is refused and leaves no state (R301, D8: log 11). The engine that results
depends on the image alone (R302). `stream` is the random source the host injects with it, any number (R133, log 5). -/
def construct (image : List Byte) (stream : Nat) : Host.Outcome State Fault Refusal :=
  if image.length ≤ Config.maxProgBytes then
    .next { Engine.reset with
      mem := Engine.reset.mem.writes Config.progBase.toNat image
      source := { stream := stream, drawn := 0 } }
  else .refused (.oversizedImage image.length)

/-- The state in which the next fetch reads the word `w`: `w` stored big-endian at `pc`, no fault latched, and `pc` moved
to 512 if no word can be fetched at it. It stands for the load of a program from outside (log 13). -/
def placeFetchWord (s : State) (w : Word) : State :=
  let pc := if s.pc.toNat + 2 ≤ Config.memSize then s.pc else Config.progBase
  { s with pc := pc, mem := s.mem.writes pc.toNat (bytesOfWord w), fault := none }

end Sys2Proof.Machine
end

