-- ==== Sys2Proof/Machine/Flags.lean ====
section
/-! DEFINITION. Every value the spec puts in the flag register `V[15]` (10_state.md R22, 42_alu.md R182): carry,
not-borrow and the bit shifted out. The collision flag is computed with the blit (Machine/Operands.lean). -/

namespace Sys2Proof.Machine

/-- The carry of `a + b` out of bit 7: 1 exactly when the sum is above 255 (R182, R176). -/
def carryOut (a b : Byte) : Bool := decide (255 < a.toNat + b.toNat)

/-- The inverse of the borrow of `a - b`: 1 exactly when `a >= b` (R182, R177, R179). -/
def notBorrow (a b : Byte) : Bool := !decide (a.toNat < b.toNat)

/-- The bit a right shift by one moves out: bit 0 (R178). -/
def bitOutRight (a : Byte) : Bool := a.getLsbD 0

/-- The bit a left shift by one moves out: bit 7 (R180). -/
def bitOutLeft (a : Byte) : Bool := a.getLsbD 7

/-- A flag as the value `V[15]` gets: 1 or 0 (R22). -/
def flagByte (b : Bool) : Byte := if b then 1 else 0

/-- `V[15] <- 1` or `0` (R22). -/
def State.setFlag (s : State) (b : Bool) : State := s.setV Config.flagReg (flagByte b)

end Sys2Proof.Machine
end

