-- ==== Sys2Proof/Machine/Operands.lean ====
section
/-! DEFINITION. The operand forms of the instructions: literals, register lists, key numbers, decimal digits, glyph
addresses and sprites (30_encoding.md R93, 43_index_memory.md R206, 44_display.md R221, 45_keys_timers.md R242). -/

namespace Sys2Proof.Machine

/-- `NNN` zero-extended to 16 bits (R93). -/
def literalWord (nnn : Literal12) : Word := nnn.setWidth 16

/-- A register's byte zero-extended to 16 bits. -/
def byteWord (b : Byte) : Word := b.setWidth 16

/-! ### Register lists -/

/-- The values of `V[0]` to `V[x]`, `V[0]` first (R204). -/
def State.regsUpTo (s : State) (x : Reg) : List Byte := s.V.toList.take (x.val + 1)

/-- The bytes written to `V[i]`, `V[i+1]`, ...; a byte past `V[15]` would go nowhere (R205). -/
def State.setRegsFrom : State → Nat → List Byte → State
  | s, _, [] => s
  | s, i, b :: bs => State.setRegsFrom (if h : i < Config.nRegs then s.setV ⟨i, h⟩ b else s) (i + 1) bs

/-! ### Decimal digits and glyphs -/

/-- Hundreds, tens and ones of a byte (R203). -/
def decimalDigits (b : Byte) : List Byte :=
  [BitVec.ofNat 8 (b.toNat / 100), BitVec.ofNat 8 (b.toNat % 100 / 10), BitVec.ofNat 8 (b.toNat % 10)]

/-- The address of the glyph of a byte's low nibble: `5 * (b & 0xF)`, the font being at address 0 (R202). -/
def glyphAddress (b : Byte) : Word := BitVec.ofNat 16 (Config.fontBase + Config.glyphBytes * (b.toNat % 16))

/-! ### Keys -/

/-- The least of the `fuel` bit numbers from `j` up that is set in `k`; `j + fuel` if none is. -/
def lowestSetFrom (k : Word) : Nat → Nat → Nat
  | 0, j => j
  | fuel + 1, j => if k.getLsbD j then j else lowestSetFrom k fuel (j + 1)

/-- `lowest_set_bit(k)`, meant for `k ≠ 0` (R10). -/
def lowestSetBit (k : Word) : Nat := lowestSetFrom k Config.nKeys 0

/-- A body that needs `V[x]` as a key number: `KeyIndexOutOfRange` above 15 (R240, R241, R273, decision D4: log 7). -/
def withKey (x : Reg) (body : Bool → State → State) (s : State) : Except Raise State :=
  if Config.nKeys ≤ (s.getV x).toNat then .error { cause := .keyIndexOutOfRange, info := (s.getV x).setWidth 17 }
  else .ok (body (s.keys.getLsbD (s.getV x).toNat) s)

/-! ### Sprites -/

/-- Sprite byte `b` placed at the most significant end of a row and shifted right by `x0`; bits shifted below bit 0 are
dropped (R221, C2). -/
def spriteMask (b : Byte) (x0 : Nat) : Row := (b.setWidth Config.dispCols <<< (Config.dispCols - 8)) >>> x0

/-- The sprite loop of R221 from row `y` on: each byte is exclusive-ORed into its row, rows past 31 are clipped, and the
flag says whether a lit pixel was met. -/
def blit (d : Vector Row Config.dispRows) (x0 : Nat) : Nat → List Byte → Vector Row Config.dispRows × Bool
  | _, [] => (d, false)
  | y, b :: bs =>
    if h : y < Config.dispRows then
      let mask := spriteMask b x0
      let after := blit (d.set y (d[y] ^^^ mask)) x0 (y + 1) bs
      (after.1, (d[y] &&& mask != 0) || after.2)
    else (d, false)

end Sys2Proof.Machine
end

