-- ==== Sys2Proof/Machine/Alu.lean ====
section
/-! DEFINITION. The register, arithmetic and logic instructions (42_alu.md). Statements run in the written order (R11,
decision D5: log 6), which is seen only when `X` or `Y` is 15. -/

namespace Sys2Proof.Machine

/-- `6XNN`: `V[X] <- NN` (R170). -/
def execLdImm (x : Reg) (nn : Byte) (s : State) : Host.Outcome State Fault Refusal := runPlain (fun t => t.setV x nn) s

/-- `7XNN`: `V[X] <- (V[X] + NN) mod 256`, no flag (R171). -/
def execAddImm (x : Reg) (nn : Byte) (s : State) : Host.Outcome State Fault Refusal :=
  runPlain (fun t => t.setV x (t.getV x + nn)) s

/-- `8XY0`: `V[X] <- V[Y]` (R172). -/
def execLdReg (x y : Reg) (s : State) : Host.Outcome State Fault Refusal := runPlain (fun t => t.setV x (t.getV y)) s

/-- `8XY1`: `V[X] <- V[X] | V[Y]`; `V[15]` is not reset (R173). -/
def execOrReg (x y : Reg) (s : State) : Host.Outcome State Fault Refusal :=
  runPlain (fun t => t.setV x (t.getV x ||| t.getV y)) s

/-- `8XY2`: `V[X] <- V[X] & V[Y]` (R174). -/
def execAndReg (x y : Reg) (s : State) : Host.Outcome State Fault Refusal :=
  runPlain (fun t => t.setV x (t.getV x &&& t.getV y)) s

/-- `8XY3`: `V[X] <- V[X] ^ V[Y]` (R175). -/
def execXorReg (x y : Reg) (s : State) : Host.Outcome State Fault Refusal :=
  runPlain (fun t => t.setV x (t.getV x ^^^ t.getV y)) s

/-- `8XY4`: the sum, then the carry into `V[15]` (R176). -/
def execAddReg (x y : Reg) (s : State) : Host.Outcome State Fault Refusal :=
  runPlain (fun t => (t.setV x (t.getV x + t.getV y)).setFlag (carryOut (t.getV x) (t.getV y))) s

/-- `8XY5`: `V[X] - V[Y]`, then the not-borrow into `V[15]` (R177). -/
def execSubReg (x y : Reg) (s : State) : Host.Outcome State Fault Refusal :=
  runPlain (fun t => (t.setV x (t.getV x - t.getV y)).setFlag (notBorrow (t.getV x) (t.getV y))) s

/-- `8XY6`: bit 0 into `V[15]`, then `V[X]`, read after that write, shifted right by one; `Y` is ignored (R178, R99). -/
def execShr (x _y : Reg) (s : State) : Host.Outcome State Fault Refusal :=
  runPlain (fun t =>
    let u := t.setFlag (bitOutRight (t.getV x))
    u.setV x (u.getV x >>> 1)) s

/-- `8XY7`: `V[Y] - V[X]` into `V[X]`, then the not-borrow into `V[15]` (R179). -/
def execSubnReg (x y : Reg) (s : State) : Host.Outcome State Fault Refusal :=
  runPlain (fun t => (t.setV x (t.getV y - t.getV x)).setFlag (notBorrow (t.getV y) (t.getV x))) s

/-- `8XYE`: bit 7 into `V[15]`, then `V[X]`, read after that write, shifted left by one; `Y` is ignored (R180, R99). -/
def execShl (x _y : Reg) (s : State) : Host.Outcome State Fault Refusal :=
  runPlain (fun t =>
    let u := t.setFlag (bitOutLeft (t.getV x))
    u.setV x (u.getV x <<< 1)) s

/-- The body of `CXNN` for the drawn byte `r`: `V[X] <- r & NN`, and the draw is counted (R181, R133). -/
def rndBody (x : Reg) (nn r : Byte) (t : State) : State := (t.setV x (r &&& nn)).countDraw

/-- `CXNN`: the drawn byte is the free value of this draw (R181, R133: log 5). -/
def execRnd (x : Reg) (nn : Byte) (s : State) : Host.Outcome State Fault Refusal :=
  runPlain (fun t => rndBody x nn t.nextRandom t) s

end Sys2Proof.Machine
end

