-- ==== Sys2Proof/Machine/ControlFlow.lean ====
section
/-! DEFINITION. The control-flow instructions (41_control_flow.md). Every body starts from the advanced `pc` (R123). -/

namespace Sys2Proof.Machine

/-- `0NNN`: no operation; the literal is ignored (R150). -/
def execSys (_nnn : Literal12) (s : State) : Host.Outcome State Fault Refusal := runPlain (fun t => t) s

/-- `00EE`: `StackUnderflow` at depth 0, else the popped word goes to `pc` (R151, R270, decision D3: log 8). -/
def execRet (s : State) : Host.Outcome State Fault Refusal :=
  runBody (fun t =>
    if Config.stackBase ≤ t.sp then .error { cause := .stackUnderflow, info := t.sp.setWidth 17 }
    else (t.loadWord t.sp.toNat).map fun target => (t.setPc target).setSp (t.sp + 2)) s

/-- `1NNN`: `pc <- NNN` (R152). -/
def execJp (nnn : Literal12) (s : State) : Host.Outcome State Fault Refusal :=
  runPlain (fun t => t.setPc (literalWord nnn)) s

/-- `2NNN`: `StackOverflow` at depth 128, else the advanced `pc` is pushed big-endian and `pc <- NNN` (R153, R269,
decision D3: log 8). A store outside memory, which no reachable `sp` asks for, raises as any other (R65, log 10). -/
def execCall (nnn : Literal12) (s : State) : Host.Outcome State Fault Refusal :=
  runBody (fun t =>
    if t.sp ≤ Config.stackLimit then .error { cause := .stackOverflow, info := t.sp.setWidth 17 }
    else (t.storeWord (t.sp - 2).toNat t.pc).map fun u => (u.setSp (t.sp - 2)).setPc (literalWord nnn)) s

/-- `BNNN`: `pc <- V[0] + NNN`, not reduced modulo 4096 (R154). -/
def execJpV0 (nnn : Literal12) (s : State) : Host.Outcome State Fault Refusal :=
  runPlain (fun t => t.setPc (byteWord (t.getV 0) + literalWord nnn)) s

/-- `3XNN`: skip if `V[X] == NN` (R155). -/
def execSeImm (x : Reg) (nn : Byte) (s : State) : Host.Outcome State Fault Refusal :=
  runPlain (fun t => t.skipIf (t.getV x == nn)) s

/-- `4XNN`: skip if `V[X] != NN` (R156). -/
def execSneImm (x : Reg) (nn : Byte) (s : State) : Host.Outcome State Fault Refusal :=
  runPlain (fun t => t.skipIf (t.getV x != nn)) s

/-- `5XY0`: skip if `V[X] == V[Y]` (R157). -/
def execSeReg (x y : Reg) (s : State) : Host.Outcome State Fault Refusal :=
  runPlain (fun t => t.skipIf (t.getV x == t.getV y)) s

/-- `9XY0`: skip if `V[X] != V[Y]` (R158). -/
def execSneReg (x y : Reg) (s : State) : Host.Outcome State Fault Refusal :=
  runPlain (fun t => t.skipIf (t.getV x != t.getV y)) s

end Sys2Proof.Machine
end

