-- ==== Sys2Proof/Machine/Display.lean ====
section
/-! DEFINITION. The display instructions (44_display.md). -/

namespace Sys2Proof.Machine

/-- `00E0`: every row of the display is 0 (R220). -/
def execCls (s : State) : Host.Outcome State Fault Refusal :=
  runPlain (fun t => t.setDisp (Vector.replicate Config.dispRows 0)) s

/-- `DXYN`: the start position is read first and wraps (`V[X] mod 64`, `V[Y] mod 32`); all `N` sprite bytes are in the
footprint; the sprite is drawn by exclusive OR, clipped right and below; `V[15]` gets the collision flag (R221, decisions
D5, D13: log 6, log 9). -/
def execDrw (x y : Reg) (n : Nibble) (s : State) : Host.Outcome State Fault Refusal :=
  runBody (fun t =>
    (t.loadBytes t.I.toNat n.toNat).map fun bs =>
      let drawn := blit t.disp ((t.getV x).toNat % Config.dispCols) ((t.getV y).toNat % Config.dispRows) bs
      (t.setDisp drawn.1).setFlag drawn.2) s

end Sys2Proof.Machine
end

