-- ==== Sys2Proof/Machine/IndexMemory.lean ====
section
/-! DEFINITION. The index-register and memory instructions (43_index_memory.md). The effective address is the exact
natural number `I + i` (R206, R66) and the whole footprint is checked before anything changes (R268, decisions D1, D2:
log 9). -/

namespace Sys2Proof.Machine

/-- `ANNN`: `I <- NNN` (R200). -/
def execLdI (nnn : Literal12) (s : State) : Host.Outcome State Fault Refusal :=
  runPlain (fun t => t.setI (literalWord nnn)) s

/-- `FX1E`: `I <- (I + V[X]) mod 65536`, no flag (R201). -/
def execAddI (x : Reg) (s : State) : Host.Outcome State Fault Refusal :=
  runPlain (fun t => t.setI (t.I + byteWord (t.getV x))) s

/-- `FX29`: `I <- 5 * (V[X] & 0xF)` (R202). -/
def execLdF (x : Reg) (s : State) : Host.Outcome State Fault Refusal :=
  runPlain (fun t => t.setI (glyphAddress (t.getV x))) s

/-- `FX33`: the three decimal digits of `V[X]`, hundreds at `I` (R203). -/
def execLdB (x : Reg) (s : State) : Host.Outcome State Fault Refusal :=
  runBody (fun t => t.storeBytes t.I.toNat (decimalDigits (t.getV x))) s

/-- `FX55`: `V[0]` to `V[X]` stored from `I` up; `I` is not changed (R204). -/
def execStoreRegs (x : Reg) (s : State) : Host.Outcome State Fault Refusal :=
  runBody (fun t => t.storeBytes t.I.toNat (t.regsUpTo x)) s

/-- `FX65`: `V[0]` to `V[X]` loaded from `I` up; `I` is not changed (R205). -/
def execLoadRegs (x : Reg) (s : State) : Host.Outcome State Fault Refusal :=
  runBody (fun t => (t.loadBytes t.I.toNat (x.val + 1)).map fun bs => t.setRegsFrom 0 bs) s

end Sys2Proof.Machine
end

