-- ==== Sys2Proof/Machine/KeysTimers.lean ====
section
/-! DEFINITION. The key and timer instructions (45_keys_timers.md). Keys are read as levels (R246). -/

namespace Sys2Proof.Machine

/-- `EX9E`: skip if key `V[X]` is down (R240). -/
def execSkp (x : Reg) (s : State) : Host.Outcome State Fault Refusal :=
  runBody (withKey x fun down t => t.skipIf down) s

/-- `EXA1`: skip if key `V[X]` is not down (R241). -/
def execSknp (x : Reg) (s : State) : Host.Outcome State Fault Refusal :=
  runBody (withKey x fun down t => t.skipIf (!down)) s

/-- `FX07`: `V[X] <- DT` (R243). -/
def execLdVxDT (x : Reg) (s : State) : Host.Outcome State Fault Refusal := runPlain (fun t => t.setV x t.DT) s

/-- `FX0A`: with no key down `pc` is rewound to this instruction; else `V[X]` gets the lowest key that is down (R242). -/
def execLdVxK (x : Reg) (s : State) : Host.Outcome State Fault Refusal :=
  runPlain (fun t =>
    if t.keys = 0 then t.setPc (t.pc - 2) else t.setV x (BitVec.ofNat 8 (lowestSetBit t.keys))) s

/-- `FX15`: `DT <- V[X]` (R244). -/
def execLdDTVx (x : Reg) (s : State) : Host.Outcome State Fault Refusal := runPlain (fun t => t.setDT (t.getV x)) s

/-- `FX18`: `ST <- V[X]` (R245). -/
def execLdSTVx (x : Reg) (s : State) : Host.Outcome State Fault Refusal := runPlain (fun t => t.setST (t.getV x)) s

end Sys2Proof.Machine
end

