-- ==== Sys2Proof/Machine/Step.lean ====
section
/-! DEFINITION. One cycle of the engine (40_cycle_and_tick.md R120). With a fault latched it does nothing (60_exceptions.md
R271). -/

namespace Sys2Proof.Machine

/-- The cycle (R120): fetch, decode, then advance and execute; an unrecognized word only advances (R262), a fetch outside
memory is a fault (R267), a latched fault stands still (R271). Checks in the order of R275. -/
def step (s : State) : Host.Outcome State Fault Refusal :=
  match s.fault with
  | some _ => .next s
  | none =>
    match fetch s with
    | .error r => .next (takeFault s r)
    | .ok w =>
      match decodeWord w with
      | .ok i => exec i s
      | .error _ => runUnrecognized s

/-- `s` with the instruction of the table word `w` stored where the next cycle fetches (log 13). -/
def State.withFetchWord (s : State) (nbits w : Nat) : State := placeFetchWord s (tableWord nbits w)

end Sys2Proof.Machine
end

