-- ==== Sys2Proof/Machine/Tick.lean ====
section
/-! DEFINITION. The two other agents: the timer controller and the host (40_cycle_and_tick.md R126 to R133,
60_exceptions.md R271, R272), and the diagnostic event a cycle emits (R262). -/

namespace Sys2Proof.Machine

/-! ### The timer controller -/

/-- A saturating decrement: `max(0, b - 1)` (R272). -/
def countDown (b : Byte) : Byte := if b = 0 then 0 else b - 1

/-- The timer controller's step: both timers count down once (R272). -/
def timerStep (s : State) : State := (s.setDT (countDown s.DT)).setST (countDown s.ST)

/-! ### The tick -/

/-- Up to `n` cycles, stopping after the one that latches a fault (R126). -/
def runCycles : Nat → State → Host.Outcome State Fault Refusal
  | 0, s => .next s
  | n + 1, s =>
    match step s with
    | .next t => if t.fault.isSome then .next t else runCycles n t
    | .fault f => .fault f
    | .refused r => .refused r

/-- `AdvanceTick(cycle_count)`: nothing with a fault latched; else the cycles, then exactly one timer step unless one of
them latched a fault (R126, R127, R271, decision D18: log 2). Any `n` is allowed, 0 too (R130, D16: log 14). -/
def advanceTick (n : Nat) (s : State) : Host.Outcome State Fault Refusal :=
  if s.fault.isSome then .next s
  else
    match runCycles n s with
    | .next t => if t.fault.isSome then .next t else .next (timerStep t)
    | .fault f => .fault f
    | .refused r => .refused r

/-- Ticks one after the other, each with its own cycle count. -/
def runTicks : List Nat → State → Host.Outcome State Fault Refusal
  | [], s => .next s
  | n :: ns, s =>
    match advanceTick n s with
    | .next t => runTicks ns t
    | .fault f => .fault f
    | .refused r => .refused r

/-! ### The host operations -/

/-- `SetPressedKeys(bitmask)`: the latch is replaced whole, also with a fault latched (R129, R271). -/
def setPressedKeys (mask : Word) (s : State) : State := s.setKeys mask

/-- `IsBeeping()`: `ST > 0` (R131). -/
def isBeeping (s : State) : Bool := decide (0 < s.ST.toNat)

/-- `Display`: the 32 rows, read only (R132). -/
def display (s : State) : Vector Row Config.dispRows := s.disp

/-- The operations of the host that change state (R128). -/
inductive HostOp where
  /-- `Construct(program_bytes)`, with the stream of random bytes the host injects (R300, R133). -/
  | construct (image : List Byte) (stream : Nat)
  /-- `SetPressedKeys(bitmask)` (R129). -/
  | setPressedKeys (mask : Word)
  /-- `AdvanceTick(cycle_count)` (R126). -/
  | advanceTick (n : Nat)
  deriving DecidableEq, Repr

/-- One host operation, between ticks (R121, R128, decision D15: log 14). -/
def hostStep (op : HostOp) (s : State) : Host.Outcome State Fault Refusal :=
  match op with
  | .construct image stream => construct image stream
  | .setPressedKeys mask => .next (setPressedKeys mask s)
  | .advanceTick n => advanceTick n s

/-! ### The diagnostic -/

/-- The event `Diag(a, w)`: an unrecognized word and the address it was fetched at (R262, decision D14: log 12). -/
structure Diag where
  addr : Word
  word : Word
  deriving DecidableEq, Repr

/-- The diagnostic code of R262, `UnrecognizedInstruction`. -/
def diagnosticCode : Byte := 0x10

/-- The event the cycle from `s` emits, if any (R262, R275). -/
def diagnostic? (s : State) : Option Diag :=
  match s.fault with
  | some _ => none
  | none =>
    match fetch s with
    | .error _ => none
    | .ok w =>
      match decodeWord w with
      | .ok _ => none
      | .error _ => some { addr := s.pc, word := w }

/-- The events of up to `n` cycles, in cycle order (R263, R275). -/
def cycleDiagnostics : Nat → State → List Diag
  | 0, _ => []
  | n + 1, s =>
    (diagnostic? s).toList ++
      match step s with
      | .next t => if t.fault.isSome then [] else cycleDiagnostics n t
      | .fault _ => []
      | .refused _ => []

/-- The events of a tick (R126, R262). -/
def tickDiagnostics (n : Nat) (s : State) : List Diag := if s.fault.isSome then [] else cycleDiagnostics n s

end Sys2Proof.Machine
end

