-- ==== Sys2Proof/Safety.lean ====
section
/-! DEFINITION. What counts as a good state and a good run, in the words claims use (60_exceptions.md R263, R271;
10_state.md R27). -/

namespace Sys2Proof.Machine

/-- No fault is recorded: the premise every claim about a program takes or proves (R271). -/
abbrev State.unfaulted (s : State) : Prop := s.fault = none

/-- `sp` stays even and inside the stack's bounds (R27). -/
abbrev State.stackOk (s : State) : Prop :=
  s.sp.toNat % 2 = 0 ∧ Config.stackLimit.toNat ≤ s.sp.toNat ∧ s.sp.toNat ≤ Config.stackBase.toNat

/-- The depth of call nesting (R27). -/
def State.depth (s : State) : Nat := (Config.stackBase.toNat - s.sp.toNat) / 2

/-- A latched fault names the instruction `pc` still points at, and its detail fits its cause (R34, R265, R266). -/
def FaultRecord.fits (r : FaultRecord) (s : State) : Prop :=
  r.faultPc = s.pc ∧
  match r.cause with
  | .fetchOutOfBounds => Config.memSize < r.faultInfo.toNat + 2 ∧ r.faultInfo.toNat = s.pc.toNat
  | .dataOutOfBounds => r.faultInfo.toNat = max s.I.toNat Config.memSize
  | .stackOverflow => r.faultInfo.toNat = s.sp.toNat ∧ s.depth = Config.stackDepth
  | .stackUnderflow => r.faultInfo.toNat = s.sp.toNat ∧ s.depth = 0
  | .keyIndexOutOfRange => Config.nKeys ≤ r.faultInfo.toNat ∧ r.faultInfo.toNat < 2 ^ Config.regBits

/-- The invariant of the machine: memory in canonical form inside 0 to 4095 (R31), the stack pointer in bounds (R27), and
a latched fault that fits the state it was latched in (R34, R266). -/
structure State.Inv (s : State) : Prop where
  memory : s.mem.wf
  stack : s.stackOk
  latch : ∀ r, s.fault = some r → r.fits s

/-- The states a machine can be in: after a reset with an image that is accepted, after a cycle, after a timer step of an
unfaulted machine, and after the host has replaced the keys (00_scope.md section 5). -/
inductive Reachable : State → Prop where
  | reset (image : List Byte) (stream : Nat) (s : State) (h : construct image stream = .next s) : Reachable s
  | cycle (s t : State) (hs : Reachable s) (h : step s = .next t) : Reachable t
  | timer (s : State) (hs : Reachable s) (h : s.unfaulted) : Reachable (timerStep s)
  | keys (mask : Word) (s : State) (hs : Reachable s) : Reachable (setPressedKeys mask s)

/-- `n` cycles from `s` end in a state with no fault recorded (R271). -/
def SafeCycles (n : Nat) (s : State) : Prop := ∃ t, runCycles n s = .next t ∧ t.unfaulted

/-- A tick that records no fault and emits no diagnostic (R263, R271). -/
def CleanTick (n : Nat) (s : State) : Prop :=
  (∃ t, advanceTick n s = .next t ∧ t.unfaulted) ∧ tickDiagnostics n s = []

end Sys2Proof.Machine
end

