-- ==== Sys2Proof/Certificates/Slice0/Obligations.lean ====
section
/-! DEFINITION. The statements for the provers. A frame is said by a record update: `t = { s with pc := p, V := t.V }` says
that `pc` and the register file are all that may differ, and the clauses after it say what each register holds. Memory is
read through `byteAt`, registers through `getV`, pixels through `pixel`. -/

open Sys2Proof Sys2Proof.Machine

/-! ### Decoding -/

/-- The operands of an instruction are the fields of the word (30_encoding.md R91, R92). -/
def Sys2Proof.Instr.operandsAre (w : Word) : Instr → Prop
  | .cls | .ret => True
  | .sys n | .jp n | .call n | .ldI n | .jpV0 n => n = nnnOf w
  | .seImm x n | .sneImm x n | .ldImm x n | .addImm x n | .rnd x n => x = xOf w ∧ n = nnOf w
  | .seReg x y | .ldReg x y | .orReg x y | .andReg x y | .xorReg x y | .addReg x y | .subReg x y | .shr x y
  | .subnReg x y | .shl x y | .sneReg x y => x = xOf w ∧ y = yOf w
  | .drw x y n => x = xOf w ∧ y = yOf w ∧ n = nOf w
  | .skp x | .sknp x | .ldVxDT x | .ldVxK x | .ldDTVx x | .ldSTVx x | .addI x | .ldF x | .ldB x | .storeRegs x
  | .loadRegs x => x = xOf w

/-- Every well-formed instruction, with every operand at every value, is read back from its word and from its two bytes,
whatever bytes follow (30_encoding.md R90, R94, R101). -/
def Obligations.DecodeEncodeRoundTrip : Prop :=
  ∀ (i : Instr) (rest : List Byte), i.wellFormed = true →
    decodeWord (encode i) = .ok i ∧ decodeBytes (bytesOfWord (encode i) ++ rest) = .ok (i, rest)

/-- A word that decodes is the word of the instruction it decodes to, which is well formed (R94, R95, R101). -/
def Obligations.EncodeOfDecodedWord : Prop :=
  ∀ (w : Word) (i : Instr), decodeWord w = .ok i → i.wellFormed = true ∧ encode i = w

/-- The decoder is the opcode map: a word decodes to `i` exactly when it has the fixed bits of the row of `i`, is not one
of the two words carved out of `0NNN`, and `i` holds its fields; every other word is unrecognized (R94, R96, R91). -/
def Obligations.DecodeIsOpcodeMap : Prop :=
  ∀ w : Word,
    (∀ i : Instr, decodeWord w = .ok i ↔
      w &&& i.encMask = i.encMatch ∧ (i.encMatch = 0x0000 → w ≠ 0x00E0 ∧ w ≠ 0x00EE) ∧ i.operandsAre w) ∧
    ((∀ i : Instr, decodeWord w ≠ .ok i) → decodeWord w = .error (.unrecognized w))

/-- The unrecognized words are exactly the five groups of R97. -/
def Obligations.UnrecognizedWordsExactly : Prop :=
  ∀ w : Word, decodeWord w = .error (.unrecognized w) ↔
    ((majorOf w = 0x5 ∨ majorOf w = 0x9) ∧ nOf w ≠ 0x0) ∨
    (majorOf w = 0x8 ∧ nOf w ∈ [0x8, 0x9, 0xA, 0xB, 0xC, 0xD, 0xF]) ∨
    (majorOf w = 0xE ∧ nnOf w ∉ [0x9E, 0xA1]) ∨
    (majorOf w = 0xF ∧ nnOf w ∉ [0x07, 0x0A, 0x15, 0x18, 0x1E, 0x29, 0x33, 0x55, 0x65])

/-- Words of the spec's encoding vectors, one of each format and one unrecognized (95_test_vectors.md section 4). -/
def Obligations.SampleWordsDecode : Prop :=
  decodeWord 0x00EE = .ok .ret ∧ decodeWord 0x00E1 = .ok (.sys 0x0E1) ∧ decodeWord 0x12A4 = .ok (.jp 0x2A4) ∧
  decodeWord 0x331F = .ok (.seImm 3 0x1F) ∧ decodeWord 0x8EF5 = .ok (.subReg 14 15) ∧
  decodeWord 0xD125 = .ok (.drw 1 2 5) ∧ decodeWord 0xEBA1 = .ok (.sknp 11) ∧ decodeWord 0xFF55 = .ok (.storeRegs 15) ∧
  decodeWord 0x8EF8 = .error (.unrecognized 0x8EF8)

/-! ### The step -/

/-- With no fault latched and a word that decodes to `i` at `pc` (high byte first), the step is the meaning of `i` at that
state: the meaning itself advances `pc` (R120, R124, R60). -/
def Obligations.StepRunsDecodedInstruction : Prop :=
  ∀ (s : State) (w : Word) (i : Instr), s.fault = none → s.pc.toNat ≤ 4094 →
    w.toNat = (s.byteAt s.pc.toNat).toNat * 256 + (s.byteAt (s.pc.toNat + 1)).toNat →
    decodeWord w = .ok i → step s = exec i s

/-- The same for the instruction the pipeline places: the step after `withFetchWord` runs it (log 13: the model's own
handle). -/
def Obligations.StepRunsPlacedInstruction : Prop :=
  ∀ (s : State) (nbits w : Nat) (i : Instr), decodeTableWord nbits w = some i →
    step (s.withFetchWord nbits w) = exec i (s.withFetchWord nbits w)

/-- An unrecognized word only advances `pc`, with no fault, and its diagnostic carries its address and itself; a cycle that
fetches no unrecognized word emits none (R262, R97). -/
def Obligations.UnrecognizedWordOnlyAdvances : Prop :=
  (∀ (s : State) (w : Word), s.fault = none → s.pc.toNat ≤ 4094 →
    w = wordOfBytes (s.byteAt s.pc.toNat) (s.byteAt (s.pc.toNat + 1)) → decodeWord w = .error (.unrecognized w) →
    step s = .next { s with pc := s.pc + 2 } ∧ diagnostic? s = some { addr := s.pc, word := w }) ∧
  (∀ (s : State) (d : Diag), diagnostic? s = some d → s.fault = none ∧ s.pc.toNat ≤ 4094 ∧ d.addr = s.pc ∧
    d.word = wordOfBytes (s.byteAt s.pc.toNat) (s.byteAt (s.pc.toNat + 1)) ∧
    decodeWord d.word = .error (.unrecognized d.word))

/-- A fetch with a byte outside memory latches `FetchOutOfBounds` with `pc` and changes nothing else (R62, R267, decision
D1: log 9). -/
def Obligations.FetchOutsideMemoryFaults : Prop :=
  ∀ s : State, s.fault = none → 4094 < s.pc.toNat →
    step s = .next { s with fault := some ⟨.fetchOutOfBounds, s.pc, s.pc.setWidth 17⟩ }

/-- With a fault latched, cycles and ticks of any length change nothing and emit nothing; the keys can still be replaced
and reset still clears the fault (R271, R302, decision D18: log 2). -/
def Obligations.FaultedMachineStandsStill : Prop :=
  ∀ (s : State) (n : Nat), s.fault ≠ none →
    step s = .next s ∧ runCycles n s = .next s ∧ advanceTick n s = .next s ∧ tickDiagnostics n s = [] ∧
    (∀ mask, setPressedKeys mask s = { s with keys := mask }) ∧
    (∀ image stream t, hostStep (.construct image stream) s = .next t → t.fault = none)

/-- A cycle that latches a fault changes nothing but the latch, which names the instruction `pc` still points at; a cycle
never clears or replaces a latched fault (R125, R266, decision D2: log 2). -/
def Obligations.FaultsArePrecise : Prop :=
  ∀ s : State, ∃ t, step s = .next t ∧
    (t.fault = s.fault ∨
      (s.fault = none ∧ ∃ r, t = { s with fault := some r } ∧ r.faultPc = s.pc ∧ t.pc = s.pc))

/-- Which instruction can latch which fault, under which condition and with which detail (R265, R268 to R270, R273,
decisions D1, D3, D4: log 7, 8, 9), in states whose `sp` is in the stack's bounds (R27). -/
def Obligations.FaultCausesAndDetails : Prop :=
  ∀ (i : Instr) (s t : State) (r : FaultRecord), s.fault = none → s.stackOk → exec i s = .next t → t.fault = some r →
    (i = .ret ∧ r.cause = .stackUnderflow ∧ s.sp.toNat = 3840 ∧ r.faultInfo.toNat = 3840) ∨
    (∃ nnn, i = .call nnn ∧ r.cause = .stackOverflow ∧ s.sp.toNat = 3584 ∧ r.faultInfo.toNat = 3584) ∨
    (∃ x, (i = .skp x ∨ i = .sknp x) ∧ r.cause = .keyIndexOutOfRange ∧ 15 < (s.getV x).toNat ∧
      r.faultInfo.toNat = (s.getV x).toNat) ∨
    (r.cause = .dataOutOfBounds ∧ r.faultInfo.toNat = max s.I.toNat 4096 ∧
      ((∃ x, i = .ldB x ∧ 4095 < s.I.toNat + 2) ∨
       (∃ x : Reg, (i = .storeRegs x ∨ i = .loadRegs x) ∧ 4095 < s.I.toNat + x.val) ∨
       (∃ x y n, i = .drw x y n ∧ 0 < n.toNat ∧ 4096 < s.I.toNat + n.toNat)))

/-! ### Control flow -/

/-- `0NNN` only advances `pc`, whatever `NNN` is, and a cycle that fetches it emits no diagnostic (R150). -/
def Obligations.SysIsNoOperation : Prop :=
  ∀ (s : State) (nnn : Literal12), exec (.sys nnn) s = .next { s with pc := s.pc + 2 } ∧
    (s.pc.toNat ≤ 4094 →
      decodeWord (wordOfBytes (s.byteAt s.pc.toNat) (s.byteAt (s.pc.toNat + 1))) = .ok (.sys nnn) → diagnostic? s = none)

/-- `1NNN` writes `NNN` to `pc` and nothing else (R152). -/
def Obligations.JumpSetsPc : Prop :=
  ∀ (s : State) (nnn : Literal12), ∃ p : Word, p.toNat = nnn.toNat ∧ exec (.jp nnn) s = .next { s with pc := p }

/-- `BNNN` writes `V[0] + NNN` to `pc`, not reduced modulo 4096, and nothing else (R154). -/
def Obligations.JumpWithOffsetSetsPc : Prop :=
  ∀ (s : State) (nnn : Literal12), ∃ p : Word, p.toNat = (s.getV 0).toNat + nnn.toNat ∧
    exec (.jpV0 nnn) s = .next { s with pc := p }

/-- `2NNN` above the stack's lower bound (decision D3: log 8) pushes the address of the next instruction big-endian at
`sp - 2`, lowers `sp` by 2 and jumps; every other byte and everything else is unchanged (R153). The upper bound 4096 is
where the slot leaves memory; reachable `sp` is at most 3840 (R27). -/
def Obligations.CallPushesAndJumps : Prop :=
  ∀ (s : State) (nnn : Literal12), 3584 < s.sp.toNat → s.sp.toNat ≤ 4096 →
    ∃ (t : State) (p q : Word), exec (.call nnn) s = .next t ∧ t = { s with pc := p, sp := q, mem := t.mem } ∧
      p.toNat = nnn.toNat ∧ q.toNat = s.sp.toNat - 2 ∧
      t.byteAt (s.sp.toNat - 2) = highByte (s.pc + 2) ∧ t.byteAt (s.sp.toNat - 1) = lowByte (s.pc + 2) ∧
      ∀ a, a ≠ s.sp.toNat - 2 → a ≠ s.sp.toNat - 1 → t.byteAt a = s.byteAt a

/-- `00EE` below the stack's upper bound (decision D3: log 8) moves the big-endian word at `sp` to `pc` and raises `sp` by
2; no byte and nothing else changes (R151). -/
def Obligations.ReturnPopsPc : Prop :=
  ∀ s : State, s.sp.toNat < 3840 →
    ∃ p q : Word, p.toNat = (s.byteAt s.sp.toNat).toNat * 256 + (s.byteAt (s.sp.toNat + 1)).toNat ∧
      q.toNat = s.sp.toNat + 2 ∧ exec .ret s = .next { s with pc := p, sp := q }

/-- A call at depth 128, a return at depth 0 and a push outside memory latch their fault and change nothing else (R269,
R270, R65, decisions D1, D3: log 8, log 10). The last happens in no reachable state (R27). -/
def Obligations.StackBoundFaults : Prop :=
  (∀ (s : State) (nnn : Literal12), s.sp.toNat ≤ 3584 →
    exec (.call nnn) s = .next { s with fault := some ⟨.stackOverflow, s.pc, s.sp.setWidth 17⟩ }) ∧
  (∀ s : State, 3840 ≤ s.sp.toNat →
    exec .ret s = .next { s with fault := some ⟨.stackUnderflow, s.pc, s.sp.setWidth 17⟩ }) ∧
  (∀ (s : State) (nnn : Literal12), 4096 < s.sp.toNat →
    exec (.call nnn) s =
      .next { s with fault := some ⟨.dataOutOfBounds, s.pc, BitVec.ofNat 17 (max (s.sp.toNat - 2) 4096)⟩ })

/-- A return from the state a call left, or from any state with that `sp` and those two bytes in the slot, goes to the
instruction after the call and restores `sp` (R153's testable property, 95_test_vectors.md S7). -/
def Obligations.ReturnUndoesCall : Prop :=
  ∀ (s t u : State) (nnn : Literal12), s.stackOk → 3584 < s.sp.toNat → exec (.call nnn) s = .next t →
    u.sp = t.sp → u.byteAt u.sp.toNat = t.byteAt u.sp.toNat →
    u.byteAt (u.sp.toNat + 1) = t.byteAt (u.sp.toNat + 1) →
    ∃ v, exec .ret u = .next v ∧ v.pc = s.pc + 2 ∧ v.sp = s.sp

/-- The four register skips add 2 more to the advanced `pc` exactly when their condition holds, and write nothing else
(R155 to R158). -/
def Obligations.RegisterSkips : Prop :=
  ∀ (s : State) (x y : Reg) (nn : Byte),
    exec (.seImm x nn) s = .next { s with pc := if s.getV x = nn then s.pc + 4 else s.pc + 2 } ∧
    exec (.sneImm x nn) s = .next { s with pc := if s.getV x ≠ nn then s.pc + 4 else s.pc + 2 } ∧
    exec (.seReg x y) s = .next { s with pc := if s.getV x = s.getV y then s.pc + 4 else s.pc + 2 } ∧
    exec (.sneReg x y) s = .next { s with pc := if s.getV x ≠ s.getV y then s.pc + 4 else s.pc + 2 }

/-! ### Registers, arithmetic and logic -/

/-- `6XNN`, `8XY0` and `FX07` write the literal, `V[Y]` or `DT` to `V[X]`, any `X` (15 too), and change no other register
and nothing else but `pc` (R170, R172, R243). -/
def Obligations.RegisterLoads : Prop :=
  ∀ (s : State) (x y : Reg) (nn : Byte), ∃ a b c : State,
    (exec (.ldImm x nn) s = .next a ∧ a = { s with pc := s.pc + 2, V := a.V } ∧
      a.getV x = nn ∧ ∀ r, r ≠ x → a.getV r = s.getV r) ∧
    (exec (.ldReg x y) s = .next b ∧ b = { s with pc := s.pc + 2, V := b.V } ∧
      b.getV x = s.getV y ∧ ∀ r, r ≠ x → b.getV r = s.getV r) ∧
    (exec (.ldVxDT x) s = .next c ∧ c = { s with pc := s.pc + 2, V := c.V } ∧
      c.getV x = s.DT ∧ ∀ r, r ≠ x → c.getV r = s.getV r)

/-- `7XNN` adds modulo 256 and writes no flag (R171). -/
def Obligations.AddLiteralWraps : Prop :=
  ∀ (s : State) (x : Reg) (nn : Byte), ∃ t : State, exec (.addImm x nn) s = .next t ∧
    t = { s with pc := s.pc + 2, V := t.V } ∧ (t.getV x).toNat = ((s.getV x).toNat + nn.toNat) % 256 ∧
    ∀ r, r ≠ x → t.getV r = s.getV r

/-- `8XY1`, `8XY2`, `8XY3` combine `V[X]` and `V[Y]` bit by bit into `V[X]` and write no flag (R173 to R175). -/
def Obligations.LogicBitByBit : Prop :=
  ∀ (s : State) (x y : Reg), ∃ a b c : State,
    (exec (.orReg x y) s = .next a ∧ a = { s with pc := s.pc + 2, V := a.V } ∧
      (∀ j, (a.getV x).getLsbD j = ((s.getV x).getLsbD j || (s.getV y).getLsbD j)) ∧
      ∀ r, r ≠ x → a.getV r = s.getV r) ∧
    (exec (.andReg x y) s = .next b ∧ b = { s with pc := s.pc + 2, V := b.V } ∧
      (∀ j, (b.getV x).getLsbD j = ((s.getV x).getLsbD j && (s.getV y).getLsbD j)) ∧
      ∀ r, r ≠ x → b.getV r = s.getV r) ∧
    (exec (.xorReg x y) s = .next c ∧ c = { s with pc := s.pc + 2, V := c.V } ∧
      (∀ j, (c.getV x).getLsbD j = ((s.getV x).getLsbD j ^^ (s.getV y).getLsbD j)) ∧
      ∀ r, r ≠ x → c.getV r = s.getV r)

/-- `8XY4`: the sum modulo 256 in `V[X]`, 1 in `V[15]` exactly when it passes 255, else 0; with `X = 15` the flag remains
(R176; that the flag is written last is the spec's decision D5: log 6). -/
def Obligations.AddWritesSumAndCarry : Prop :=
  ∀ (s : State) (x y : Reg), ∃ t : State, exec (.addReg x y) s = .next t ∧ t = { s with pc := s.pc + 2, V := t.V } ∧
    (t.getV 15).toNat = (if 255 < (s.getV x).toNat + (s.getV y).toNat then 1 else 0) ∧
    (x ≠ 15 → (t.getV x).toNat = ((s.getV x).toNat + (s.getV y).toNat) % 256) ∧
    ∀ r, r ≠ x → r ≠ 15 → t.getV r = s.getV r

/-- `8XY5` and `8XY7`: the difference modulo 256 in `V[X]`, 0 in `V[15]` exactly on a borrow, else 1; with `X = 15` the
flag remains (R177, R179; that the flag is written last is the spec's decision D5: log 6). -/
def Obligations.SubtractWritesDifferenceAndNotBorrow : Prop :=
  ∀ (s : State) (x y : Reg), ∃ t u : State,
    (exec (.subReg x y) s = .next t ∧ t = { s with pc := s.pc + 2, V := t.V } ∧
      (t.getV 15).toNat = (if (s.getV x).toNat < (s.getV y).toNat then 0 else 1) ∧
      (x ≠ 15 → (t.getV x).toNat = ((s.getV x).toNat + 256 - (s.getV y).toNat) % 256) ∧
      ∀ r, r ≠ x → r ≠ 15 → t.getV r = s.getV r) ∧
    (exec (.subnReg x y) s = .next u ∧ u = { s with pc := s.pc + 2, V := u.V } ∧
      (u.getV 15).toNat = (if (s.getV y).toNat < (s.getV x).toNat then 0 else 1) ∧
      (x ≠ 15 → (u.getV x).toNat = ((s.getV y).toNat + 256 - (s.getV x).toNat) % 256) ∧
      ∀ r, r ≠ x → r ≠ 15 → u.getV r = s.getV r)

/-- `8XY6` and `8XYE` shift `V[X]` by one and put the bit shifted out into `V[15]`, whatever `Y` is; with `X = 15` the
register ends as 0, and as 0 or 2 (R178, R180, R99; the `X = 15` clauses rest on the spec's decision D5: log 6). -/
def Obligations.ShiftsWriteBitOut : Prop :=
  ∀ (s : State) (x y : Reg), ∃ t u : State,
    (exec (.shr x y) s = .next t ∧ t = { s with pc := s.pc + 2, V := t.V } ∧
      (x ≠ 15 → (t.getV x).toNat = (s.getV x).toNat / 2 ∧ (t.getV 15).toNat = (s.getV x).toNat % 2) ∧
      (x = 15 → (t.getV 15).toNat = 0) ∧ ∀ r, r ≠ x → r ≠ 15 → t.getV r = s.getV r) ∧
    (exec (.shl x y) s = .next u ∧ u = { s with pc := s.pc + 2, V := u.V } ∧
      (x ≠ 15 → (u.getV x).toNat = (s.getV x).toNat * 2 % 256 ∧ (u.getV 15).toNat = (s.getV x).toNat / 128) ∧
      (x = 15 → (u.getV 15).toNat = (s.getV 15).toNat / 128 * 2) ∧ ∀ r, r ≠ x → r ≠ 15 → u.getV r = s.getV r)

/-- `CXNN`: the byte drawn, whatever it is, under the mask `NN`: no bit outside `NN` is set; one byte is drawn (R181,
R133). The byte is the free value `Config.randomByte` (log 5); the source beside the engine is the model's own. -/
def Obligations.RandomByteUnderMask : Prop :=
  ∀ (s : State) (x : Reg) (nn : Byte), ∃ t : State, exec (.rnd x nn) s = .next t ∧
    t = { s with pc := s.pc + 2, V := t.V, source := { s.source with drawn := s.source.drawn + 1 } } ∧
    t.getV x = Config.randomByte s.source.stream s.source.drawn &&& nn ∧ (∀ j, nn.getLsbD j = false → (t.getV x).getLsbD j = false) ∧
    ∀ r, r ≠ x → t.getV r = s.getV r

/-! ### Index register and memory -/

/-- `ANNN`, `FX1E` and `FX29` write `I`: the literal, the sum modulo 65536, or five times the low nibble; no flag and
nothing else but `pc` (R200, R201, R202). -/
def Obligations.IndexRegisterWrites : Prop :=
  ∀ (s : State) (x : Reg) (nnn : Literal12), ∃ a b c : Word,
    (a.toNat = nnn.toNat ∧ exec (.ldI nnn) s = .next { s with pc := s.pc + 2, I := a }) ∧
    (b.toNat = (s.I.toNat + (s.getV x).toNat) % 65536 ∧
      exec (.addI x) s = .next { s with pc := s.pc + 2, I := b }) ∧
    (c.toNat = 5 * ((s.getV x).toNat % 16) ∧ exec (.ldF x) s = .next { s with pc := s.pc + 2, I := c })

/-- `FX33` inside memory stores hundreds, tens and ones of `V[X]` at `I`, `I + 1`, `I + 2`; every other byte and
everything else but `pc` is unchanged (R203). -/
def Obligations.DecimalDigitsStored : Prop :=
  ∀ (s : State) (x : Reg), s.I.toNat + 2 ≤ 4095 →
    ∃ t : State, exec (.ldB x) s = .next t ∧ t = { s with pc := s.pc + 2, mem := t.mem } ∧
      (t.byteAt s.I.toNat).toNat = (s.getV x).toNat / 100 ∧
      (t.byteAt (s.I.toNat + 1)).toNat = (s.getV x).toNat % 100 / 10 ∧
      (t.byteAt (s.I.toNat + 2)).toNat = (s.getV x).toNat % 10 ∧
      ∀ a, (a < s.I.toNat ∨ s.I.toNat + 2 < a) → t.byteAt a = s.byteAt a

/-- `FX55` inside memory stores `V[0]` to `V[X]` from `I` up; every other byte and everything else but `pc`, `I` too, is
unchanged (R204). -/
def Obligations.RegistersStored : Prop :=
  ∀ (s : State) (x : Reg), s.I.toNat + x.val ≤ 4095 →
    ∃ t : State, exec (.storeRegs x) s = .next t ∧ t = { s with pc := s.pc + 2, mem := t.mem } ∧
      (∀ r : Reg, r ≤ x → t.byteAt (s.I.toNat + r.val) = s.getV r) ∧
      ∀ a, (a < s.I.toNat ∨ s.I.toNat + x.val < a) → t.byteAt a = s.byteAt a

/-- `FX65` inside memory loads `V[0]` to `V[X]` from `I` up; the registers above `X`, every byte and everything else but
`pc`, `I` too, are unchanged (R205). -/
def Obligations.RegistersLoaded : Prop :=
  ∀ (s : State) (x : Reg), s.I.toNat + x.val ≤ 4095 →
    ∃ t : State, exec (.loadRegs x) s = .next t ∧ t = { s with pc := s.pc + 2, V := t.V } ∧
      (∀ r : Reg, r ≤ x → t.getV r = s.byteAt (s.I.toNat + r.val)) ∧ ∀ r : Reg, x < r → t.getV r = s.getV r

/-- A footprint that passes address 4095 latches `DataOutOfBounds` with `max(I, 4096)`; no byte, register or pixel changes
(R268, R66, decisions D1, D2, D13, D21: log 9). -/
def Obligations.FootprintFaults : Prop :=
  ∀ (s t : State) (x y : Reg) (n : Nibble),
    t = { s with fault := some ⟨.dataOutOfBounds, s.pc, BitVec.ofNat 17 (max s.I.toNat 4096)⟩ } →
    (4095 < s.I.toNat + 2 → exec (.ldB x) s = .next t) ∧
    (4095 < s.I.toNat + x.val → exec (.storeRegs x) s = .next t ∧ exec (.loadRegs x) s = .next t) ∧
    (0 < n.toNat → 4095 < s.I.toNat + n.toNat - 1 → exec (.drw x y n) s = .next t)

/-- A word stored where `pc` points next is what the next fetch reads: `FX55` with at least two registers and `I` equal to
the address of the following instruction (20_memory.md R78). -/
def Obligations.StoredBytesAreFetched : Prop :=
  ∀ (s t : State) (x : Reg), 1 ≤ x.val → s.I.toNat + x.val ≤ 4095 → s.I = s.pc + 2 → exec (.storeRegs x) s = .next t →
    t.pc = s.I ∧ fetch t = .ok (wordOfBytes (s.getV 0) (s.getV 1))

/-! ### Display -/

/-- `00E0` makes every row 0 and writes nothing else but `pc` (R220). -/
def Obligations.ClearDisplayRows : Prop :=
  ∀ s : State, ∃ t : State, exec .cls s = .next t ∧ t = { s with pc := s.pc + 2, disp := t.disp } ∧
    (∀ (y : Nat) (h : y < 32), t.disp[y] = 0) ∧ ∀ x y, t.pixel x y = false

/-- `DXYN` in pixel terms: bit `7 - j` of the byte at `I + i` is exclusive-ORed into pixel `(x0 + j, y0 + i)` where that is
on the screen, `x0 = V[X] mod 64`, `y0 = V[Y] mod 32` read before `V[15]` is written; no other pixel changes; `V[15]` is 1
exactly when a lit pixel met a set sprite bit, else 0; no byte, no other register and nothing else but `pc` changes (R221,
R223; with `X` or `Y` 15 this rests on the spec's decision D5, the footprint on D13: log 6, log 9). With `N = 0` nothing is
drawn, whatever `I` is (C4). -/
def Obligations.DrawSpritePixels : Prop :=
  ∀ (s : State) (x y : Reg) (n : Nibble), (n.toNat = 0 ∨ s.I.toNat + n.toNat - 1 ≤ 4095) →
    ∃ (t : State) (bit : Nat → Nat → Bool), exec (.drw x y n) s = .next t ∧
      t = { s with pc := s.pc + 2, V := t.V, disp := t.disp } ∧
      (∀ i j, i < n.toNat → j < 8 → bit ((s.getV x).toNat % 64 + j) ((s.getV y).toNat % 32 + i) =
        (s.byteAt (s.I.toNat + i)).getLsbD (7 - j)) ∧
      (∀ p q, (p < (s.getV x).toNat % 64 ∨ (s.getV x).toNat % 64 + 8 ≤ p ∨ q < (s.getV y).toNat % 32 ∨
        (s.getV y).toNat % 32 + n.toNat ≤ q) → bit p q = false) ∧
      (∀ p q, p < 64 → q < 32 → t.pixel p q = (s.pixel p q ^^ bit p q)) ∧
      ((∃ p q, p < 64 ∧ q < 32 ∧ s.pixel p q = true ∧ bit p q = true) → t.getV 15 = 1) ∧
      ((∀ p q, p < 64 → q < 32 → s.pixel p q = true → bit p q = false) → t.getV 15 = 0) ∧
      ∀ r, r ≠ 15 → t.getV r = s.getV r

/-- Drawing again with the same operands, position and sprite bytes, nothing else having written the display, restores it
exactly; the second draw reports a collision exactly when the first one turned some pixel on (R222; for the flag this is what
R221's pseudocode gives, not the document's sentence: log 19). -/
def Obligations.DrawTwiceRestores : Prop :=
  ∀ (s t u : State) (x y : Reg) (n : Nibble), (n.toNat = 0 ∨ s.I.toNat + n.toNat - 1 ≤ 4095) →
    exec (.drw x y n) s = .next t → u.disp = t.disp → u.getV x = s.getV x → u.getV y = s.getV y → u.I = s.I →
    (∀ i, i < n.toNat → u.byteAt (s.I.toNat + i) = s.byteAt (s.I.toNat + i)) →
    ∃ v, exec (.drw x y n) u = .next v ∧ v.disp = s.disp ∧
      ((∃ p q, p < 64 ∧ q < 32 ∧ s.pixel p q = false ∧ t.pixel p q = true) → v.getV 15 = 1) ∧
      ((∀ p q, p < 64 → q < 32 → s.pixel p q = false → t.pixel p q = false) → v.getV 15 = 0)

/-- The document's sentence read literally, with the proviso of N24: if the sprite has a visible set bit, that is if the
first draw changed the display, the second draw reports a collision. EXPECTED TO FAIL: a sprite all of whose visible bits
meet lit pixels only turns pixels off, so the second draw meets none (log 19). -/
def Obligations.SecondDrawAlwaysCollides : Prop :=
  ∀ (s t u v : State) (x y : Reg) (n : Nibble), exec (.drw x y n) s = .next t → t.fault = s.fault →
    u.disp = t.disp → u.getV x = s.getV x → u.getV y = s.getV y → u.I = s.I → u.mem = s.mem →
    t.disp ≠ s.disp → exec (.drw x y n) u = .next v → v.getV 15 = 1

/-! ### Keys and timers -/

/-- `EX9E` and `EXA1` with a key number up to 15 skip exactly when that key is down, or not down, and write nothing else
(R240, R241). -/
def Obligations.KeySkips : Prop :=
  ∀ (s : State) (x : Reg), (s.getV x).toNat ≤ 15 →
    exec (.skp x) s = .next { s with pc := if s.keys.getLsbD (s.getV x).toNat then s.pc + 4 else s.pc + 2 } ∧
    exec (.sknp x) s = .next { s with pc := if s.keys.getLsbD (s.getV x).toNat then s.pc + 2 else s.pc + 4 }

/-- `EX9E` and `EXA1` with a number above 15 latch `KeyIndexOutOfRange` and change nothing else (R273, decision D4:
log 7). -/
def Obligations.KeyNumberAboveFifteenFaults : Prop :=
  ∀ (s : State) (x : Reg), 15 < (s.getV x).toNat →
    exec (.skp x) s = .next { s with fault := some ⟨.keyIndexOutOfRange, s.pc, (s.getV x).setWidth 17⟩ } ∧
    exec (.sknp x) s = .next { s with fault := some ⟨.keyIndexOutOfRange, s.pc, (s.getV x).setWidth 17⟩ }

/-- `FX0A` with no key down leaves the whole state as it is, `pc` at the instruction; with keys down `V[X]` gets the
lowest-numbered one and `pc` moves on, nothing else changes (R242). -/
def Obligations.WaitForKey : Prop :=
  ∀ (s : State) (x : Reg),
    (s.keys = 0 → exec (.ldVxK x) s = .next s) ∧
    (s.keys ≠ 0 → ∃ t : State, exec (.ldVxK x) s = .next t ∧ t = { s with pc := s.pc + 2, V := t.V } ∧
      (t.getV x).toNat ≤ 15 ∧ s.keys.getLsbD (t.getV x).toNat = true ∧
      (∀ k, k < (t.getV x).toNat → s.keys.getLsbD k = false) ∧ ∀ r, r ≠ x → t.getV r = s.getV r)

/-- A tick of any length that begins at a waiting `FX0A` with no key down is spent on it: only the timers count down (R242,
95_test_vectors.md S9). -/
def Obligations.KeyWaitSpansTicks : Prop :=
  ∀ (s : State) (x : Reg) (n : Nat), s.fault = none → s.keys = 0 → s.pc.toNat ≤ 4094 →
    decodeWord (wordOfBytes (s.byteAt s.pc.toNat) (s.byteAt (s.pc.toNat + 1))) = .ok (.ldVxK x) →
    runCycles n s = .next s ∧ advanceTick n s = .next (timerStep s)

/-- `FX15` and `FX18` copy `V[X]` to `DT` and to `ST` and write nothing else but `pc` (R244, R245). -/
def Obligations.TimerLoads : Prop :=
  ∀ (s : State) (x : Reg),
    exec (.ldDTVx x) s = .next { s with pc := s.pc + 2, DT := s.getV x } ∧
    exec (.ldSTVx x) s = .next { s with pc := s.pc + 2, ST := s.getV x }

/-! ### The tick and the host -/

/-- After the cycles of a tick in which no fault occurred both timers count down once, floor 0, whatever the cycle count;
the step changes nothing else (R272, R127). -/
def Obligations.TickCountsDownOnce : Prop :=
  ∀ (s u : State) (n : Nat), s.fault = none → runCycles n s = .next u → u.fault = none →
    ∃ t, advanceTick n s = .next t ∧ t = { u with DT := t.DT, ST := t.ST } ∧
      t.DT.toNat = u.DT.toNat - 1 ∧ t.ST.toNat = u.ST.toNat - 1

/-- If one of a tick's cycles latches a fault, the remaining cycles and the timer step are skipped (R126, decision D18:
log 2). -/
def Obligations.FaultEndsTick : Prop :=
  ∀ (s u : State) (k n : Nat), k ≤ n → runCycles k s = .next u → u.fault ≠ none →
    runCycles n s = .next u ∧ advanceTick n s = .next u

/-- After `N` ticks the delay timer is `max(0, V - N)`, whatever the cycle counts, for a machine that stays in a set `P` of
states where no cycle faults or writes `DT` (R272's testable property). -/
def Obligations.DelayTimerAfterTicks : Prop :=
  ∀ (P : State → Prop) (s : State) (counts : List Nat), P s → s.fault = none →
    (∀ u v, P u → step u = .next v → P v ∧ v.fault = none ∧ v.DT = u.DT) → (∀ u, P u → P (timerStep u)) →
    ∃ t, runTicks counts s = .next t ∧ P t ∧ t.DT.toNat = s.DT.toNat - counts.length

/-- `SetPressedKeys` replaces the 16 key bits and nothing else; `IsBeeping` is `ST > 0`; `Display` is the 32 rows, whose
bit `63 - x` is pixel `(x, y)` (R129, R131, R132). -/
def Obligations.HostOperationsReadAndSet : Prop :=
  ∀ (s : State) (mask : Word), hostStep (.setPressedKeys mask) s = .next { s with keys := mask } ∧
    (isBeeping s = true ↔ 0 < s.ST.toNat) ∧
    ∀ (x y : Nat) (h : y < 32), (display s)[y].getLsbD (63 - x) = s.pixel x y

/-- Reset with an image of at most 3584 bytes: font, fill, image, fill, and every register, timer, latch and row as R37
says, the same whatever stream of random bytes the host injects (R302); a longer image is refused (R300, R301; the fill and the refusal are the spec's decisions D7 and D8: log 3, log 11; the
font bytes are not looked at: log 4). The empty image gives `State.reset`. -/
def Obligations.ResetState : Prop :=
  (∀ (image : List Byte) (stream : Nat), image.length ≤ 3584 → ∃ s, construct image stream = .next s ∧
    (∀ a, a < 80 → s.byteAt a = Config.font.getD a 0) ∧
    (∀ a, 80 ≤ a → a < 512 → s.byteAt a = Config.memFill) ∧
    (∀ (j : Nat) (h : j < image.length), s.byteAt (512 + j) = image[j]) ∧
    (∀ a, 512 + image.length ≤ a → s.byteAt a = Config.memFill) ∧
    (∀ r, s.getV r = 0) ∧ s.I = 0 ∧ s.pc.toNat = 512 ∧ s.sp.toNat = 3840 ∧ s.DT = 0 ∧ s.ST = 0 ∧ s.keys = 0 ∧
    (∀ (y : Nat) (h : y < 32), s.disp[y] = 0) ∧ s.fault = none) ∧
  (∀ (image : List Byte) (stream : Nat), 3584 < image.length →
    construct image stream = .refused (.oversizedImage image.length)) ∧
  (∀ (image : List Byte) (k l : Nat) (s t : State), construct image k = .next s → construct image l = .next t →
    s.toEngine = t.toEngine) ∧
  construct [] State.reset.source.stream = .next State.reset

/-! ### The whole machine -/

/-- The invariant holds after every reset that is accepted, and at `State.reset` (R27, R31, R37). -/
def Obligations.ResetMeetsInvariant : Prop :=
  State.reset.Inv ∧ ∀ (image : List Byte) (stream : Nat) (s : State), construct image stream = .next s → s.Inv

/-- Every step keeps the invariant: memory canonical and inside 4096 bytes, `sp` even and in bounds, a latched fault that
fits its state (R27, R31, R34, R266). -/
def Obligations.StepKeepsInvariant : Prop :=
  ∀ s t : State, s.Inv → step s = .next t → t.Inv

/-- Every host operation that has a result keeps the invariant (R128). -/
def Obligations.HostOperationsKeepInvariant : Prop :=
  ∀ (op : HostOp) (s t : State), s.Inv → hostStep op s = .next t → t.Inv

/-- In every state the machine can be in, the invariant holds; so `sp` is even, between 3584 and 3840, and the depth of
call nesting is `(3840 - sp) / 2`, at most 128 (R27). -/
def Obligations.ReachableStatesMeetInvariant : Prop :=
  ∀ s : State, Reachable s → s.Inv ∧ s.sp.toNat % 2 = 0 ∧ 3584 ≤ s.sp.toNat ∧ s.sp.toNat ≤ 3840 ∧
    s.sp.toNat + 2 * s.depth = 3840 ∧ s.depth ≤ 128

/-- Only the instructions R22 names change `V[15]`: the six flag writers, an instruction whose `X` is 15 and that writes
`V[X]`, and `FX65` with `X = 15` (R22). -/
def Obligations.FlagRegisterWriters : Prop :=
  ∀ (i : Instr) (s t : State), exec i s = .next t → t.getV 15 ≠ s.getV 15 →
    (∃ x y, i = .addReg x y ∨ i = .subReg x y ∨ i = .shr x y ∨ i = .subnReg x y ∨ i = .shl x y ∨
      ∃ n, i = .drw x y n) ∨
    (∃ nn, i = .ldImm 15 nn ∨ i = .addImm 15 nn ∨ i = .rnd 15 nn) ∨
    (∃ y, i = .ldReg 15 y ∨ i = .orReg 15 y ∨ i = .andReg 15 y ∨ i = .xorReg 15 y) ∨
    i = .ldVxDT 15 ∨ i = .ldVxK 15 ∨ i = .loadRegs 15

/-- The right-hand column of R38: which instruction can change which state; memory changes only at the addresses R68
gives; a cycle that does not leave `pc` at the next instruction jumps, skips, waits or faults (R123). -/
def Obligations.StateWriters : Prop :=
  ∀ (i : Instr) (s t : State), exec i s = .next t →
    (t.sp ≠ s.sp → i = .ret ∨ ∃ nnn, i = .call nnn) ∧
    (t.I ≠ s.I → (∃ nnn, i = .ldI nnn) ∨ ∃ x, i = .addI x ∨ i = .ldF x) ∧
    (t.DT ≠ s.DT → ∃ x, i = .ldDTVx x) ∧ (t.ST ≠ s.ST → ∃ x, i = .ldSTVx x) ∧ t.keys = s.keys ∧
    (t.disp ≠ s.disp → i = .cls ∨ ∃ x y n, i = .drw x y n) ∧
    (t.source ≠ s.source → ∃ x nn, i = .rnd x nn) ∧
    (∀ a, t.byteAt a ≠ s.byteAt a →
      (∃ nnn, i = .call nnn ∧ (a + 2 = s.sp.toNat ∨ a + 1 = s.sp.toNat)) ∨
      (∃ x, i = .ldB x ∧ s.I.toNat ≤ a ∧ a ≤ s.I.toNat + 2) ∨
      (∃ x : Reg, i = .storeRegs x ∧ s.I.toNat ≤ a ∧ a ≤ s.I.toNat + x.val)) ∧
    (t.pc ≠ s.pc + 2 → (t = { s with fault := t.fault } ∧ (t.fault ≠ none ∨ ∃ x, i = .ldVxK x)) ∨ i = .ret ∨
      (∃ nnn, i = .jp nnn ∨ i = .call nnn ∨ i = .jpV0 nnn) ∨
      (∃ x y nn, i = .seImm x nn ∨ i = .sneImm x nn ∨ i = .seReg x y ∨ i = .sneReg x y ∨ i = .skp x ∨ i = .sknp x))

/-- The left-hand column of R38 for the inputs and timers: an instruction that does not read `keys`, `DT`, `ST` or the random
source does the same whatever they hold, and hands them on (R28, R29, R30, R133). No instruction reads `ST`. -/
def Obligations.UnreadStateDoesNotMatter : Prop :=
  ∀ (i : Instr) (s t : State), exec i s = .next t →
    (∀ k : Word, (∀ x, i ≠ .skp x ∧ i ≠ .sknp x ∧ i ≠ .ldVxK x) →
      exec i { s with keys := k } = .next { t with keys := k }) ∧
    (∀ b : Byte, (∀ x, i ≠ .ldVxDT x ∧ i ≠ .ldDTVx x) → exec i { s with DT := b } = .next { t with DT := b }) ∧
    (∀ b x, i = .ldDTVx x → exec i { s with DT := b } = .next t) ∧
    (∀ b : Byte, (∀ x, i ≠ .ldSTVx x) → exec i { s with ST := b } = .next { t with ST := b }) ∧
    (∀ b x, i = .ldSTVx x → exec i { s with ST := b } = .next t) ∧
    (∀ q : RandomSource, (∀ x nn, i ≠ .rnd x nn) → exec i { s with source := q } = .next { t with source := q })

/-- The random source is outside the engine (R36, R133): a step depends on it through the one byte it supplies next, so
two sources with that byte in common give the same engine; and a step stays in the source's stream and draws at most one
byte of it. The source beside the engine is the model's own (log 5). -/
def Obligations.RandomSourceSeenThroughItsByte : Prop :=
  ∀ (s t : State) (q : RandomSource), step s = .next t →
    (({ s with source := q } : State).nextRandom = s.nextRandom →
      ∃ u, step { s with source := q } = .next u ∧ u.toEngine = t.toEngine) ∧
    t.source.stream = s.source.stream ∧ (t.source.drawn = s.source.drawn ∨ t.source.drawn = s.source.drawn + 1)
end

