-- ==== Sys2Proof/Laws/Config.lean ====
section
/-! SUPPORT. The relations R5 states between the parameters (00_scope.md). -/

namespace Sys2Proof.Config

theorem fontBytes_eq : fontBytes = 16 * glyphBytes := rfl

theorem font_length : font.length = fontBytes := rfl

theorem maxProgBytes_eq : maxProgBytes = memSize - progBase.toNat := rfl

theorem stackLimit_eq : stackLimit.toNat = stackBase.toNat - 2 * stackDepth := rfl

theorem flagReg_eq : flagReg.val = nRegs - 1 := rfl

end Sys2Proof.Config
end

