-- ==== Sys2Proof/Laws/Decode.lean ====
section
/-! SUPPORT. The fields of an assembled word are what was assembled (30_encoding.md R91, R92, R101). -/

namespace Sys2Proof

/-! ### The fields of a word as numbers -/

theorem majorOf_toNat (w : Word) : (majorOf w).toNat = w.toNat / 4096 := by
  have := w.isLt
  simp [majorOf, Nat.shiftRight_eq_div_pow]; omega

theorem xOf_val (w : Word) : (xOf w).val = w.toNat / 256 % 16 := by
  simp [xOf, Nat.shiftRight_eq_div_pow]

theorem yOf_val (w : Word) : (yOf w).val = w.toNat / 16 % 16 := by
  simp [yOf, Nat.shiftRight_eq_div_pow]

theorem nOf_toNat (w : Word) : (nOf w).toNat = w.toNat % 16 := by simp [nOf]

theorem nnOf_toNat (w : Word) : (nnOf w).toNat = w.toNat % 256 := by simp [nnOf]

theorem nnnOf_toNat (w : Word) : (nnnOf w).toNat = w.toNat % 4096 := by simp [nnnOf]

@[simp] theorem regField_toNat (x : Reg) : (regField x).toNat = x.val := rfl

/-! ### Assembled words as numbers -/

theorem formatNNN_toNat (m : Nibble) (nnn : Literal12) : (formatNNN m nnn).toNat = m.toNat * 4096 + nnn.toNat := by
  have := BitVec.toNat_append m nnn
  rw [← Nat.shiftLeft_add_eq_or_of_lt nnn.isLt, Nat.shiftLeft_eq] at this
  exact this

theorem formatXNN_toNat (m : Nibble) (x : Reg) (nn : Byte) :
    (formatXNN m x nn).toNat = m.toNat * 4096 + x.val * 256 + nn.toNat := by
  have h1 := BitVec.toNat_append (regField x) nn
  rw [← Nat.shiftLeft_add_eq_or_of_lt nn.isLt, Nat.shiftLeft_eq, regField_toNat] at h1
  have h2 := formatNNN_toNat m (regField x ++ nn : Literal12)
  have h3 : (regField x ++ nn : Literal12).toNat = x.val * 256 + nn.toNat := h1
  rw [h3] at h2
  exact h2.trans (by omega)

theorem formatXYN_toNat (m : Nibble) (x y : Reg) (n : Nibble) :
    (formatXYN m x y n).toNat = m.toNat * 4096 + x.val * 256 + y.val * 16 + n.toNat := by
  have h1 := BitVec.toNat_append (regField y) n
  rw [← Nat.shiftLeft_add_eq_or_of_lt n.isLt, Nat.shiftLeft_eq, regField_toNat] at h1
  have h2 := formatXNN_toNat m x (regField y ++ n : Byte)
  have h3 : (regField y ++ n : Byte).toNat = y.val * 16 + n.toNat := h1
  rw [h3] at h2
  exact h2.trans (by omega)

/-! ### The fields of an assembled word -/

variable (m : Nibble) (x y : Reg) (n : Nibble) (nn : Byte) (nnn : Literal12)

theorem majorOf_formatNNN : majorOf (formatNNN m nnn) = m := by
  apply BitVec.eq_of_toNat_eq
  have := nnn.isLt
  rw [majorOf_toNat, formatNNN_toNat]; omega

theorem nnnOf_formatNNN : nnnOf (formatNNN m nnn) = nnn := by
  apply BitVec.eq_of_toNat_eq
  have := nnn.isLt
  rw [nnnOf_toNat, formatNNN_toNat]; omega

theorem majorOf_formatXNN : majorOf (formatXNN m x nn) = m := by
  apply BitVec.eq_of_toNat_eq
  have := nn.isLt
  have := x.isLt
  rw [majorOf_toNat, formatXNN_toNat]; omega

theorem xOf_formatXNN : xOf (formatXNN m x nn) = x := by
  apply Fin.ext
  have := nn.isLt
  have := x.isLt
  rw [xOf_val, formatXNN_toNat]; omega

theorem nnOf_formatXNN : nnOf (formatXNN m x nn) = nn := by
  apply BitVec.eq_of_toNat_eq
  have := nn.isLt
  rw [nnOf_toNat, formatXNN_toNat]; omega

theorem majorOf_formatXYN : majorOf (formatXYN m x y n) = m := by
  apply BitVec.eq_of_toNat_eq
  have := n.isLt
  have := x.isLt
  have := y.isLt
  rw [majorOf_toNat, formatXYN_toNat]; omega

theorem xOf_formatXYN : xOf (formatXYN m x y n) = x := by
  apply Fin.ext
  have := n.isLt
  have := x.isLt
  have := y.isLt
  rw [xOf_val, formatXYN_toNat]; omega

theorem yOf_formatXYN : yOf (formatXYN m x y n) = y := by
  apply Fin.ext
  have := n.isLt
  have := x.isLt
  have := y.isLt
  rw [yOf_val, formatXYN_toNat]; omega

theorem nOf_formatXYN : nOf (formatXYN m x y n) = n := by
  apply BitVec.eq_of_toNat_eq
  have := n.isLt
  rw [nOf_toNat, formatXYN_toNat]; omega

/-! ### The bits of an assembled word -/

theorem getLsbD_formatNNN (i : Nat) :
    (formatNNN m nnn).getLsbD i = if i < 12 then nnn.getLsbD i else m.getLsbD (i - 12) :=
  (BitVec.getLsbD_append (x := m) (y := nnn) (i := i))

theorem getLsbD_formatXNN (i : Nat) : (formatXNN m x nn).getLsbD i =
    if i < 8 then nn.getLsbD i else if i < 12 then (regField x).getLsbD (i - 8) else m.getLsbD (i - 12) := by
  have h1 := getLsbD_formatNNN m (regField x ++ nn : Literal12) i
  have h2 : (regField x ++ nn : Literal12).getLsbD i = if i < 8 then nn.getLsbD i else (regField x).getLsbD (i - 8) :=
    BitVec.getLsbD_append (x := regField x) (y := nn) (i := i)
  rw [h2] at h1
  refine h1.trans ?_
  by_cases h8 : i < 8
  · simp [h8, show i < 12 by omega]
  · simp [h8]

theorem getLsbD_formatXYN (i : Nat) : (formatXYN m x y n).getLsbD i =
    if i < 4 then n.getLsbD i else if i < 8 then (regField y).getLsbD (i - 4)
    else if i < 12 then (regField x).getLsbD (i - 8) else m.getLsbD (i - 12) := by
  have h1 := getLsbD_formatXNN m x (regField y ++ n : Byte) i
  have h2 : (regField y ++ n : Byte).getLsbD i = if i < 4 then n.getLsbD i else (regField y).getLsbD (i - 4) :=
    BitVec.getLsbD_append (x := regField y) (y := n) (i := i)
  rw [h2] at h1
  refine h1.trans ?_
  by_cases h4 : i < 4
  · simp [h4, show i < 8 by omega]
  · simp [h4]

/-! ### The fixed bits of a format -/

theorem fixed_formatNNN : formatNNN m nnn &&& 0xF000 = formatNNN m 0 := by
  apply BitVec.eq_of_getLsbD_eq
  intro i hi
  rw [BitVec.getLsbD_and, getLsbD_formatNNN, getLsbD_formatNNN]
  interval_cases i <;> simp

theorem fixed_formatXNN_major : formatXNN m x nn &&& 0xF000 = formatNNN m 0 := by
  apply BitVec.eq_of_getLsbD_eq
  intro i hi
  rw [BitVec.getLsbD_and, getLsbD_formatXNN, getLsbD_formatNNN]
  interval_cases i <;> simp

theorem fixed_formatXYN_major : formatXYN m x y n &&& 0xF000 = formatNNN m 0 := by
  apply BitVec.eq_of_getLsbD_eq
  intro i hi
  rw [BitVec.getLsbD_and, getLsbD_formatXYN, getLsbD_formatNNN]
  interval_cases i <;> simp

theorem fixed_formatXNN : formatXNN m x nn &&& 0xF0FF = formatXNN m 0 nn := by
  apply BitVec.eq_of_getLsbD_eq
  intro i hi
  rw [BitVec.getLsbD_and, getLsbD_formatXNN, getLsbD_formatXNN]
  interval_cases i <;> simp [regField]

theorem fixed_formatXYN : formatXYN m x y n &&& 0xF00F = formatXYN m 0 0 n := by
  apply BitVec.eq_of_getLsbD_eq
  intro i hi
  rw [BitVec.getLsbD_and, getLsbD_formatXYN, getLsbD_formatXYN]
  interval_cases i <;> simp [regField]

end Sys2Proof
end

