-- ==== Sys2Proof/Laws/Memory.lean ====
section
/-! SUPPORT. The laws of memory (20_memory.md R63, R64, R74): a read after a write to the same address gives the byte, a
write leaves every other address alone, every operation keeps the canonical form, and in it equal memories are equal
data. The read laws hold for every list, canonical or not. -/

namespace Sys2Proof.Machine.Memory

@[simp] theorem read_nil (a : Nat) : read [] a = unlisted a := rfl

theorem read_without_same (m : Memory) (a : Nat) : (m.without a).read a = unlisted a := by
  induction m with
  | nil => rfl
  | cons c m ih =>
    obtain ⟨k, b⟩ := c
    by_cases h : k = a
    · simpa [without, List.filter_cons, h] using ih
    · have h' : a ≠ k := fun e => h e.symm
      simpa [without, List.filter_cons, h, read, h'] using ih

theorem read_without_other (m : Memory) (a k : Nat) (h : k ≠ a) : (m.without a).read k = m.read k := by
  induction m with
  | nil => rfl
  | cons c m ih =>
    obtain ⟨j, b⟩ := c
    by_cases hj : j = a
    · have hk : k ≠ j := by omega
      simpa [without, List.filter_cons, hj, read, hk, h] using ih
    · by_cases hk : k = j
      · simp [without, hj, read, hk]
      · simpa [without, List.filter_cons, hj, read, hk] using ih

theorem not_listed_without (m : Memory) (a : Nat) : ∀ c ∈ m.without a, c.1 ≠ a := by
  intro c hc
  simpa using (List.mem_filter.mp hc).2

theorem read_place_same (m : Memory) (a : Nat) (b : Byte) (h : ∀ c ∈ m, c.1 ≠ a) : (place (a, b) m).read a = b := by
  induction m with
  | nil => simp [place, read]
  | cons c m ih =>
    obtain ⟨j, d⟩ := c
    have hj : a ≠ j := fun e => h (j, d) (by simp) e.symm
    simp only [place]
    split
    · simp [read]
    · simpa [read, hj] using ih fun c hc => h c (by simp [hc])

theorem read_place_other (m : Memory) (a k : Nat) (b : Byte) (h : k ≠ a) : (place (a, b) m).read k = m.read k := by
  induction m with
  | nil => simp [place, read, h]
  | cons c m ih =>
    obtain ⟨j, d⟩ := c
    simp only [place]
    split
    · simp [read, h]
    · simp [read, ih]

/-- A read after a write to the same address gives the byte written (R64). -/
@[simp] theorem read_write_same (m : Memory) (a : Nat) (b : Byte) : (m.write a b).read a = b := by
  unfold write
  split
  · rw [read_without_same]; exact Eq.symm ‹_›
  · exact read_place_same _ _ _ (not_listed_without m a)

/-- A write leaves every other address alone (R64). -/
@[simp] theorem read_write_other (m : Memory) (a k : Nat) (b : Byte) (h : k ≠ a) :
    (m.write a b).read k = m.read k := by
  unfold write
  split
  · exact read_without_other _ _ _ h
  · rw [read_place_other _ _ _ _ h, read_without_other _ _ _ h]

/-- What a read gives after a write of several bytes: the byte written where one was, the old byte elsewhere. -/
theorem read_writes (m : Memory) (a k : Nat) (bs : List Byte) :
    (m.writes a bs).read k = if a ≤ k then bs.getD (k - a) (m.read k) else m.read k := by
  induction bs generalizing m a with
  | nil => simp [writes]
  | cons b bs ih =>
    rw [writes, ih]
    rcases Nat.lt_trichotomy k a with h | h | h
    · rw [if_neg (by omega), if_neg (by omega), read_write_other _ _ _ _ (by omega)]
    · subst h; simp
    · rw [if_pos (show a + 1 ≤ k by omega), if_pos (show a ≤ k by omega), read_write_other _ _ _ _ (by omega),
        show k - a = (k - (a + 1)) + 1 by omega, List.getD_cons_succ]

/-- Outside the bytes written every address reads as before. -/
theorem read_writes_outside (m : Memory) (a k : Nat) (bs : List Byte) (h : k < a ∨ a + bs.length ≤ k) :
    (m.writes a bs).read k = m.read k := by
  rw [read_writes]
  split
  · rw [List.getD_eq_default _ _ (by omega)]
  · rfl

@[simp] theorem reads_length (m : Memory) (a n : Nat) : (m.reads a n).length = n := by
  induction n generalizing a with
  | zero => rfl
  | succ n ih => simp [reads, ih]

theorem reads_getD (m : Memory) (a n i : Nat) (d : Byte) (h : i < n) : (m.reads a n).getD i d = m.read (a + i) := by
  induction n generalizing a i with
  | zero => omega
  | succ n ih =>
    cases i with
    | zero => simp [reads]
    | succ i => rw [reads, List.getD_cons_succ, ih _ _ (by omega)]; congr 1; omega

/-! ### The canonical form -/

theorem wf_nil : wf [] := ⟨List.Pairwise.nil, by simp⟩

theorem wf_without (m : Memory) (a : Nat) (h : m.wf) : (m.without a).wf :=
  ⟨h.1.filter _, fun c hc => h.2 c (List.mem_of_mem_filter hc)⟩

theorem mem_place (c d : Host.Cell) (m : Memory) : d ∈ place c m ↔ d = c ∨ d ∈ m := by
  induction m with
  | nil => simp [place]
  | cons e m ih =>
    simp only [place]
    split
    · simp
    · simp only [List.mem_cons, ih]; tauto

theorem pairwise_place (c : Host.Cell) (m : Memory) (h : m.Pairwise fun c d => c.1 < d.1) (hc : ∀ d ∈ m, d.1 ≠ c.1) :
    (place c m).Pairwise fun c d => c.1 < d.1 := by
  induction m with
  | nil => simp [place]
  | cons e m ih =>
    obtain ⟨he, hm⟩ := List.pairwise_cons.mp h
    have hne := hc e (by simp)
    simp only [place]
    split
    · refine List.pairwise_cons.mpr ⟨fun d hd => ?_, h⟩
      rcases List.mem_cons.mp hd with rfl | hd
      · assumption
      · have := he d hd; omega
    · refine List.pairwise_cons.mpr ⟨fun d hd => ?_, ih hm fun d hd => hc d (by simp [hd])⟩
      rcases (mem_place c d m).mp hd with rfl | hd
      · omega
      · exact he d hd

/-- A write inside memory keeps the canonical form. -/
theorem wf_write (m : Memory) (a : Nat) (b : Byte) (h : m.wf) (ha : a < Config.memSize) : (m.write a b).wf := by
  unfold write
  split
  · exact wf_without m a h
  · refine ⟨pairwise_place _ _ (wf_without m a h).1 (not_listed_without m a), fun c hc => ?_⟩
    rcases (mem_place _ _ _).mp hc with rfl | hc
    · exact ⟨ha, ‹_›⟩
    · exact (wf_without m a h).2 c hc

/-- Writes inside memory keep the canonical form. -/
theorem wf_writes (m : Memory) (a : Nat) (bs : List Byte) (h : m.wf) (ha : a + bs.length ≤ Config.memSize) :
    (m.writes a bs).wf := by
  induction bs generalizing m a with
  | nil => exact h
  | cons b bs ih =>
    simp only [List.length_cons] at ha
    exact ih _ _ (wf_write m a b h (by omega)) (by omega)

theorem read_of_head_lt (m : Memory) (a : Nat) (h : ∀ c ∈ m, a < c.1) : m.read a = unlisted a := by
  induction m with
  | nil => rfl
  | cons c m ih =>
    obtain ⟨k, b⟩ := c
    have : a < k := h (k, b) (by simp)
    rw [read, if_neg (by omega)]
    exact ih fun c hc => h c (by simp [hc])

/-- In the canonical form equal memories are equal data. -/
theorem ext_of_wf (m n : Memory) (hm : m.wf) (hn : n.wf) (h : ∀ a, m.read a = n.read a) : m = n := by
  induction m generalizing n with
  | nil =>
    cases n with
    | nil => rfl
    | cons d n =>
      obtain ⟨k, b⟩ := d
      have := h k
      simp only [read, if_true] at this
      exact absurd this.symm (hn.2 (k, b) (by simp)).2
  | cons c m ih =>
    obtain ⟨j, b⟩ := c
    obtain ⟨hj, hm'⟩ := List.pairwise_cons.mp hm.1
    have hb := (hm.2 (j, b) (by simp)).2
    cases n with
    | nil =>
      have := h j
      simp only [read, if_true] at this
      exact absurd this hb
    | cons d n =>
      obtain ⟨k, e⟩ := d
      obtain ⟨hk, hn'⟩ := List.pairwise_cons.mp hn.1
      have he := (hn.2 (k, e) (by simp)).2
      have hjk : j = k := by
        rcases Nat.lt_trichotomy j k with hlt | heq | hgt
        · have hr : read ((k, e) :: n) j = unlisted j := by
            refine read_of_head_lt _ _ fun c hc => ?_
            rcases List.mem_cons.mp hc with rfl | hc
            · exact hlt
            · exact lt_trans hlt (hk c hc)
          have := h j
          rw [hr, read, if_pos rfl] at this
          exact absurd this hb
        · exact heq
        · have hr : read ((j, b) :: m) k = unlisted k := by
            refine read_of_head_lt _ _ fun c hc => ?_
            rcases List.mem_cons.mp hc with rfl | hc
            · exact hgt
            · exact lt_trans hgt (hj c hc)
          have := h k
          rw [hr, read, if_pos rfl] at this
          exact absurd this.symm he
      subst hjk
      have hbe : b = e := by simpa [read] using h j
      subst hbe
      congr 1
      refine ih n ⟨hm', fun c hc => hm.2 c (by simp [hc])⟩ ⟨hn', fun c hc => hn.2 c (by simp [hc])⟩ fun a => ?_
      by_cases ha : a = j
      · subst ha
        rw [read_of_head_lt m a hj, read_of_head_lt n a hk]
      · simpa [read, ha] using h a

end Sys2Proof.Machine.Memory
end

