-- ==== Sys2Proof/Laws/State.lean ====
section
/-! SUPPORT. One lemma per field per update of the state, and what the accessors `getV`, `byteAt` and `pixel` read after an
update, so that no later proof unfolds a record update. -/

namespace Sys2Proof.Machine
namespace State

variable (s : State)

/-! ### `setV` -/

@[simp] theorem setV_mem (x : Reg) (b : Byte) : (s.setV x b).mem = s.mem := rfl
@[simp] theorem setV_V (x : Reg) (b : Byte) : (s.setV x b).V = s.V.set x.val b := rfl
@[simp] theorem setV_I (x : Reg) (b : Byte) : (s.setV x b).I = s.I := rfl
@[simp] theorem setV_pc (x : Reg) (b : Byte) : (s.setV x b).pc = s.pc := rfl
@[simp] theorem setV_sp (x : Reg) (b : Byte) : (s.setV x b).sp = s.sp := rfl
@[simp] theorem setV_DT (x : Reg) (b : Byte) : (s.setV x b).DT = s.DT := rfl
@[simp] theorem setV_ST (x : Reg) (b : Byte) : (s.setV x b).ST = s.ST := rfl
@[simp] theorem setV_keys (x : Reg) (b : Byte) : (s.setV x b).keys = s.keys := rfl
@[simp] theorem setV_disp (x : Reg) (b : Byte) : (s.setV x b).disp = s.disp := rfl
@[simp] theorem setV_fault (x : Reg) (b : Byte) : (s.setV x b).fault = s.fault := rfl
@[simp] theorem setV_source (x : Reg) (b : Byte) : (s.setV x b).source = s.source := rfl
@[simp] theorem setV_byteAt (x : Reg) (b : Byte) (k : Nat) : (s.setV x b).byteAt k = s.byteAt k := rfl
@[simp] theorem setV_pixel (x : Reg) (b : Byte) (p q : Nat) : (s.setV x b).pixel p q = s.pixel p q := rfl

/-! ### `setMem` -/

@[simp] theorem setMem_mem (m : Memory) : (s.setMem m).mem = m := rfl
@[simp] theorem setMem_V (m : Memory) : (s.setMem m).V = s.V := rfl
@[simp] theorem setMem_I (m : Memory) : (s.setMem m).I = s.I := rfl
@[simp] theorem setMem_pc (m : Memory) : (s.setMem m).pc = s.pc := rfl
@[simp] theorem setMem_sp (m : Memory) : (s.setMem m).sp = s.sp := rfl
@[simp] theorem setMem_DT (m : Memory) : (s.setMem m).DT = s.DT := rfl
@[simp] theorem setMem_ST (m : Memory) : (s.setMem m).ST = s.ST := rfl
@[simp] theorem setMem_keys (m : Memory) : (s.setMem m).keys = s.keys := rfl
@[simp] theorem setMem_disp (m : Memory) : (s.setMem m).disp = s.disp := rfl
@[simp] theorem setMem_fault (m : Memory) : (s.setMem m).fault = s.fault := rfl
@[simp] theorem setMem_source (m : Memory) : (s.setMem m).source = s.source := rfl
@[simp] theorem setMem_getV (m : Memory) (r : Reg) : (s.setMem m).getV r = s.getV r := rfl
@[simp] theorem setMem_pixel (m : Memory) (p q : Nat) : (s.setMem m).pixel p q = s.pixel p q := rfl

/-! ### `setI` -/

@[simp] theorem setI_mem (w : Word) : (s.setI w).mem = s.mem := rfl
@[simp] theorem setI_V (w : Word) : (s.setI w).V = s.V := rfl
@[simp] theorem setI_I (w : Word) : (s.setI w).I = w := rfl
@[simp] theorem setI_pc (w : Word) : (s.setI w).pc = s.pc := rfl
@[simp] theorem setI_sp (w : Word) : (s.setI w).sp = s.sp := rfl
@[simp] theorem setI_DT (w : Word) : (s.setI w).DT = s.DT := rfl
@[simp] theorem setI_ST (w : Word) : (s.setI w).ST = s.ST := rfl
@[simp] theorem setI_keys (w : Word) : (s.setI w).keys = s.keys := rfl
@[simp] theorem setI_disp (w : Word) : (s.setI w).disp = s.disp := rfl
@[simp] theorem setI_fault (w : Word) : (s.setI w).fault = s.fault := rfl
@[simp] theorem setI_source (w : Word) : (s.setI w).source = s.source := rfl
@[simp] theorem setI_getV (w : Word) (r : Reg) : (s.setI w).getV r = s.getV r := rfl
@[simp] theorem setI_byteAt (w : Word) (k : Nat) : (s.setI w).byteAt k = s.byteAt k := rfl
@[simp] theorem setI_pixel (w : Word) (p q : Nat) : (s.setI w).pixel p q = s.pixel p q := rfl

/-! ### `setPc` -/

@[simp] theorem setPc_mem (w : Word) : (s.setPc w).mem = s.mem := rfl
@[simp] theorem setPc_V (w : Word) : (s.setPc w).V = s.V := rfl
@[simp] theorem setPc_I (w : Word) : (s.setPc w).I = s.I := rfl
@[simp] theorem setPc_pc (w : Word) : (s.setPc w).pc = w := rfl
@[simp] theorem setPc_sp (w : Word) : (s.setPc w).sp = s.sp := rfl
@[simp] theorem setPc_DT (w : Word) : (s.setPc w).DT = s.DT := rfl
@[simp] theorem setPc_ST (w : Word) : (s.setPc w).ST = s.ST := rfl
@[simp] theorem setPc_keys (w : Word) : (s.setPc w).keys = s.keys := rfl
@[simp] theorem setPc_disp (w : Word) : (s.setPc w).disp = s.disp := rfl
@[simp] theorem setPc_fault (w : Word) : (s.setPc w).fault = s.fault := rfl
@[simp] theorem setPc_source (w : Word) : (s.setPc w).source = s.source := rfl
@[simp] theorem setPc_getV (w : Word) (r : Reg) : (s.setPc w).getV r = s.getV r := rfl
@[simp] theorem setPc_byteAt (w : Word) (k : Nat) : (s.setPc w).byteAt k = s.byteAt k := rfl
@[simp] theorem setPc_pixel (w : Word) (p q : Nat) : (s.setPc w).pixel p q = s.pixel p q := rfl

/-! ### `setSp` -/

@[simp] theorem setSp_mem (w : Word) : (s.setSp w).mem = s.mem := rfl
@[simp] theorem setSp_V (w : Word) : (s.setSp w).V = s.V := rfl
@[simp] theorem setSp_I (w : Word) : (s.setSp w).I = s.I := rfl
@[simp] theorem setSp_pc (w : Word) : (s.setSp w).pc = s.pc := rfl
@[simp] theorem setSp_sp (w : Word) : (s.setSp w).sp = w := rfl
@[simp] theorem setSp_DT (w : Word) : (s.setSp w).DT = s.DT := rfl
@[simp] theorem setSp_ST (w : Word) : (s.setSp w).ST = s.ST := rfl
@[simp] theorem setSp_keys (w : Word) : (s.setSp w).keys = s.keys := rfl
@[simp] theorem setSp_disp (w : Word) : (s.setSp w).disp = s.disp := rfl
@[simp] theorem setSp_fault (w : Word) : (s.setSp w).fault = s.fault := rfl
@[simp] theorem setSp_source (w : Word) : (s.setSp w).source = s.source := rfl
@[simp] theorem setSp_getV (w : Word) (r : Reg) : (s.setSp w).getV r = s.getV r := rfl
@[simp] theorem setSp_byteAt (w : Word) (k : Nat) : (s.setSp w).byteAt k = s.byteAt k := rfl
@[simp] theorem setSp_pixel (w : Word) (p q : Nat) : (s.setSp w).pixel p q = s.pixel p q := rfl

/-! ### `setDT` -/

@[simp] theorem setDT_mem (b : Byte) : (s.setDT b).mem = s.mem := rfl
@[simp] theorem setDT_V (b : Byte) : (s.setDT b).V = s.V := rfl
@[simp] theorem setDT_I (b : Byte) : (s.setDT b).I = s.I := rfl
@[simp] theorem setDT_pc (b : Byte) : (s.setDT b).pc = s.pc := rfl
@[simp] theorem setDT_sp (b : Byte) : (s.setDT b).sp = s.sp := rfl
@[simp] theorem setDT_DT (b : Byte) : (s.setDT b).DT = b := rfl
@[simp] theorem setDT_ST (b : Byte) : (s.setDT b).ST = s.ST := rfl
@[simp] theorem setDT_keys (b : Byte) : (s.setDT b).keys = s.keys := rfl
@[simp] theorem setDT_disp (b : Byte) : (s.setDT b).disp = s.disp := rfl
@[simp] theorem setDT_fault (b : Byte) : (s.setDT b).fault = s.fault := rfl
@[simp] theorem setDT_source (b : Byte) : (s.setDT b).source = s.source := rfl
@[simp] theorem setDT_getV (b : Byte) (r : Reg) : (s.setDT b).getV r = s.getV r := rfl
@[simp] theorem setDT_byteAt (b : Byte) (k : Nat) : (s.setDT b).byteAt k = s.byteAt k := rfl
@[simp] theorem setDT_pixel (b : Byte) (p q : Nat) : (s.setDT b).pixel p q = s.pixel p q := rfl

/-! ### `setST` -/

@[simp] theorem setST_mem (b : Byte) : (s.setST b).mem = s.mem := rfl
@[simp] theorem setST_V (b : Byte) : (s.setST b).V = s.V := rfl
@[simp] theorem setST_I (b : Byte) : (s.setST b).I = s.I := rfl
@[simp] theorem setST_pc (b : Byte) : (s.setST b).pc = s.pc := rfl
@[simp] theorem setST_sp (b : Byte) : (s.setST b).sp = s.sp := rfl
@[simp] theorem setST_DT (b : Byte) : (s.setST b).DT = s.DT := rfl
@[simp] theorem setST_ST (b : Byte) : (s.setST b).ST = b := rfl
@[simp] theorem setST_keys (b : Byte) : (s.setST b).keys = s.keys := rfl
@[simp] theorem setST_disp (b : Byte) : (s.setST b).disp = s.disp := rfl
@[simp] theorem setST_fault (b : Byte) : (s.setST b).fault = s.fault := rfl
@[simp] theorem setST_source (b : Byte) : (s.setST b).source = s.source := rfl
@[simp] theorem setST_getV (b : Byte) (r : Reg) : (s.setST b).getV r = s.getV r := rfl
@[simp] theorem setST_byteAt (b : Byte) (k : Nat) : (s.setST b).byteAt k = s.byteAt k := rfl
@[simp] theorem setST_pixel (b : Byte) (p q : Nat) : (s.setST b).pixel p q = s.pixel p q := rfl

/-! ### `setKeys` -/

@[simp] theorem setKeys_mem (w : Word) : (s.setKeys w).mem = s.mem := rfl
@[simp] theorem setKeys_V (w : Word) : (s.setKeys w).V = s.V := rfl
@[simp] theorem setKeys_I (w : Word) : (s.setKeys w).I = s.I := rfl
@[simp] theorem setKeys_pc (w : Word) : (s.setKeys w).pc = s.pc := rfl
@[simp] theorem setKeys_sp (w : Word) : (s.setKeys w).sp = s.sp := rfl
@[simp] theorem setKeys_DT (w : Word) : (s.setKeys w).DT = s.DT := rfl
@[simp] theorem setKeys_ST (w : Word) : (s.setKeys w).ST = s.ST := rfl
@[simp] theorem setKeys_keys (w : Word) : (s.setKeys w).keys = w := rfl
@[simp] theorem setKeys_disp (w : Word) : (s.setKeys w).disp = s.disp := rfl
@[simp] theorem setKeys_fault (w : Word) : (s.setKeys w).fault = s.fault := rfl
@[simp] theorem setKeys_source (w : Word) : (s.setKeys w).source = s.source := rfl
@[simp] theorem setKeys_getV (w : Word) (r : Reg) : (s.setKeys w).getV r = s.getV r := rfl
@[simp] theorem setKeys_byteAt (w : Word) (k : Nat) : (s.setKeys w).byteAt k = s.byteAt k := rfl
@[simp] theorem setKeys_pixel (w : Word) (p q : Nat) : (s.setKeys w).pixel p q = s.pixel p q := rfl

/-! ### `setDisp` -/

@[simp] theorem setDisp_mem (d : Vector Row Config.dispRows) : (s.setDisp d).mem = s.mem := rfl
@[simp] theorem setDisp_V (d : Vector Row Config.dispRows) : (s.setDisp d).V = s.V := rfl
@[simp] theorem setDisp_I (d : Vector Row Config.dispRows) : (s.setDisp d).I = s.I := rfl
@[simp] theorem setDisp_pc (d : Vector Row Config.dispRows) : (s.setDisp d).pc = s.pc := rfl
@[simp] theorem setDisp_sp (d : Vector Row Config.dispRows) : (s.setDisp d).sp = s.sp := rfl
@[simp] theorem setDisp_DT (d : Vector Row Config.dispRows) : (s.setDisp d).DT = s.DT := rfl
@[simp] theorem setDisp_ST (d : Vector Row Config.dispRows) : (s.setDisp d).ST = s.ST := rfl
@[simp] theorem setDisp_keys (d : Vector Row Config.dispRows) : (s.setDisp d).keys = s.keys := rfl
@[simp] theorem setDisp_disp (d : Vector Row Config.dispRows) : (s.setDisp d).disp = d := rfl
@[simp] theorem setDisp_fault (d : Vector Row Config.dispRows) : (s.setDisp d).fault = s.fault := rfl
@[simp] theorem setDisp_source (d : Vector Row Config.dispRows) : (s.setDisp d).source = s.source := rfl
@[simp] theorem setDisp_getV (d : Vector Row Config.dispRows) (r : Reg) : (s.setDisp d).getV r = s.getV r := rfl
@[simp] theorem setDisp_byteAt (d : Vector Row Config.dispRows) (k : Nat) : (s.setDisp d).byteAt k = s.byteAt k := rfl

/-! ### `countDraw` -/

@[simp] theorem countDraw_mem : s.countDraw.mem = s.mem := rfl
@[simp] theorem countDraw_V : s.countDraw.V = s.V := rfl
@[simp] theorem countDraw_I : s.countDraw.I = s.I := rfl
@[simp] theorem countDraw_pc : s.countDraw.pc = s.pc := rfl
@[simp] theorem countDraw_sp : s.countDraw.sp = s.sp := rfl
@[simp] theorem countDraw_DT : s.countDraw.DT = s.DT := rfl
@[simp] theorem countDraw_ST : s.countDraw.ST = s.ST := rfl
@[simp] theorem countDraw_keys : s.countDraw.keys = s.keys := rfl
@[simp] theorem countDraw_disp : s.countDraw.disp = s.disp := rfl
@[simp] theorem countDraw_fault : s.countDraw.fault = s.fault := rfl
@[simp] theorem countDraw_source : s.countDraw.source = { s.source with drawn := s.source.drawn + 1 } := rfl
@[simp] theorem countDraw_getV (r : Reg) : s.countDraw.getV r = s.getV r := rfl
@[simp] theorem countDraw_byteAt (k : Nat) : s.countDraw.byteAt k = s.byteAt k := rfl
@[simp] theorem countDraw_pixel (p q : Nat) : s.countDraw.pixel p q = s.pixel p q := rfl

/-! ### `advance` -/

@[simp] theorem advance_mem : s.advance.mem = s.mem := rfl
@[simp] theorem advance_V : s.advance.V = s.V := rfl
@[simp] theorem advance_I : s.advance.I = s.I := rfl
@[simp] theorem advance_pc : s.advance.pc = s.pc + 2 := rfl
@[simp] theorem advance_sp : s.advance.sp = s.sp := rfl
@[simp] theorem advance_DT : s.advance.DT = s.DT := rfl
@[simp] theorem advance_ST : s.advance.ST = s.ST := rfl
@[simp] theorem advance_keys : s.advance.keys = s.keys := rfl
@[simp] theorem advance_disp : s.advance.disp = s.disp := rfl
@[simp] theorem advance_fault : s.advance.fault = s.fault := rfl
@[simp] theorem advance_source : s.advance.source = s.source := rfl
@[simp] theorem advance_getV (r : Reg) : s.advance.getV r = s.getV r := rfl
@[simp] theorem advance_byteAt (k : Nat) : s.advance.byteAt k = s.byteAt k := rfl
@[simp] theorem advance_pixel (p q : Nat) : s.advance.pixel p q = s.pixel p q := rfl

/-! ### `skip` -/

@[simp] theorem skip_mem : s.skip.mem = s.mem := rfl
@[simp] theorem skip_V : s.skip.V = s.V := rfl
@[simp] theorem skip_I : s.skip.I = s.I := rfl
@[simp] theorem skip_pc : s.skip.pc = s.pc + 2 := rfl
@[simp] theorem skip_sp : s.skip.sp = s.sp := rfl
@[simp] theorem skip_DT : s.skip.DT = s.DT := rfl
@[simp] theorem skip_ST : s.skip.ST = s.ST := rfl
@[simp] theorem skip_keys : s.skip.keys = s.keys := rfl
@[simp] theorem skip_disp : s.skip.disp = s.disp := rfl
@[simp] theorem skip_fault : s.skip.fault = s.fault := rfl
@[simp] theorem skip_source : s.skip.source = s.source := rfl
@[simp] theorem skip_getV (r : Reg) : s.skip.getV r = s.getV r := rfl
@[simp] theorem skip_byteAt (k : Nat) : s.skip.byteAt k = s.byteAt k := rfl
@[simp] theorem skip_pixel (p q : Nat) : s.skip.pixel p q = s.pixel p q := rfl

/-! ### Reading a register after a write -/

@[simp] theorem getV_setV_self (x : Reg) (b : Byte) : (s.setV x b).getV x = b := by
  simp [getV, setV]

@[simp] theorem getV_setV_ne (x r : Reg) (b : Byte) (h : r ≠ x) : (s.setV x b).getV r = s.getV r := by
  have : x.val ≠ r.val := fun e => h (Fin.ext e.symm)
  simp [getV, setV, this]

theorem getV_setV (x r : Reg) (b : Byte) : (s.setV x b).getV r = if r = x then b else s.getV r := by
  split
  · subst_vars; simp
  · simp [*]

/-- Two states with the same registers through `getV` have the same register file. -/
theorem V_ext (s t : State) (h : ∀ r, s.getV r = t.getV r) : s.V = t.V := by
  ext i hi : 1
  exact h ⟨i, hi⟩

/-! ### `setFlag` writes `V[15]` and nothing else -/

@[simp] theorem setFlag_mem (c : Bool) : (s.setFlag c).mem = s.mem := rfl
@[simp] theorem setFlag_I (c : Bool) : (s.setFlag c).I = s.I := rfl
@[simp] theorem setFlag_pc (c : Bool) : (s.setFlag c).pc = s.pc := rfl
@[simp] theorem setFlag_sp (c : Bool) : (s.setFlag c).sp = s.sp := rfl
@[simp] theorem setFlag_DT (c : Bool) : (s.setFlag c).DT = s.DT := rfl
@[simp] theorem setFlag_ST (c : Bool) : (s.setFlag c).ST = s.ST := rfl
@[simp] theorem setFlag_keys (c : Bool) : (s.setFlag c).keys = s.keys := rfl
@[simp] theorem setFlag_disp (c : Bool) : (s.setFlag c).disp = s.disp := rfl
@[simp] theorem setFlag_fault (c : Bool) : (s.setFlag c).fault = s.fault := rfl
@[simp] theorem setFlag_source (c : Bool) : (s.setFlag c).source = s.source := rfl
@[simp] theorem setFlag_byteAt (c : Bool) (k : Nat) : (s.setFlag c).byteAt k = s.byteAt k := rfl
@[simp] theorem setFlag_pixel (c : Bool) (p q : Nat) : (s.setFlag c).pixel p q = s.pixel p q := rfl
@[simp] theorem getV_setFlag_self (c : Bool) : (s.setFlag c).getV 15 = flagByte c := by simp [setFlag]

@[simp] theorem getV_setFlag_ne (c : Bool) (r : Reg) (h : r ≠ 15) : (s.setFlag c).getV r = s.getV r := by
  simp [setFlag, h]

theorem getV_setFlag (c : Bool) (r : Reg) : (s.setFlag c).getV r = if r = 15 then flagByte c else s.getV r :=
  getV_setV s 15 r (flagByte c)

/-! ### `skipIf` writes `pc` and nothing else -/

@[simp] theorem skipIf_pc (c : Bool) : (s.skipIf c).pc = if c then s.pc + 2 else s.pc := by cases c <;> rfl

@[simp] theorem skipIf_mem (c : Bool) : (s.skipIf c).mem = s.mem := by cases c <;> rfl
@[simp] theorem skipIf_V (c : Bool) : (s.skipIf c).V = s.V := by cases c <;> rfl
@[simp] theorem skipIf_I (c : Bool) : (s.skipIf c).I = s.I := by cases c <;> rfl
@[simp] theorem skipIf_sp (c : Bool) : (s.skipIf c).sp = s.sp := by cases c <;> rfl
@[simp] theorem skipIf_DT (c : Bool) : (s.skipIf c).DT = s.DT := by cases c <;> rfl
@[simp] theorem skipIf_ST (c : Bool) : (s.skipIf c).ST = s.ST := by cases c <;> rfl
@[simp] theorem skipIf_keys (c : Bool) : (s.skipIf c).keys = s.keys := by cases c <;> rfl
@[simp] theorem skipIf_disp (c : Bool) : (s.skipIf c).disp = s.disp := by cases c <;> rfl
@[simp] theorem skipIf_fault (c : Bool) : (s.skipIf c).fault = s.fault := by cases c <;> rfl
@[simp] theorem skipIf_source (c : Bool) : (s.skipIf c).source = s.source := by cases c <;> rfl
@[simp] theorem skipIf_getV (c : Bool) (r : Reg) : (s.skipIf c).getV r = s.getV r := by cases c <;> rfl
@[simp] theorem skipIf_byteAt (c : Bool) (k : Nat) : (s.skipIf c).byteAt k = s.byteAt k := by cases c <;> rfl
@[simp] theorem skipIf_pixel (c : Bool) (p q : Nat) : (s.skipIf c).pixel p q = s.pixel p q := by cases c <;> rfl

/-! ### `setRegsFrom` writes registers and nothing else -/

@[simp] theorem setRegsFrom_mem (i : Nat) (bs : List Byte) : (s.setRegsFrom i bs).mem = s.mem := by
  induction bs generalizing s i with
  | nil => rfl
  | cons b bs ih => rw [setRegsFrom, ih]; split <;> rfl
@[simp] theorem setRegsFrom_I (i : Nat) (bs : List Byte) : (s.setRegsFrom i bs).I = s.I := by
  induction bs generalizing s i with
  | nil => rfl
  | cons b bs ih => rw [setRegsFrom, ih]; split <;> rfl
@[simp] theorem setRegsFrom_pc (i : Nat) (bs : List Byte) : (s.setRegsFrom i bs).pc = s.pc := by
  induction bs generalizing s i with
  | nil => rfl
  | cons b bs ih => rw [setRegsFrom, ih]; split <;> rfl
@[simp] theorem setRegsFrom_sp (i : Nat) (bs : List Byte) : (s.setRegsFrom i bs).sp = s.sp := by
  induction bs generalizing s i with
  | nil => rfl
  | cons b bs ih => rw [setRegsFrom, ih]; split <;> rfl
@[simp] theorem setRegsFrom_DT (i : Nat) (bs : List Byte) : (s.setRegsFrom i bs).DT = s.DT := by
  induction bs generalizing s i with
  | nil => rfl
  | cons b bs ih => rw [setRegsFrom, ih]; split <;> rfl
@[simp] theorem setRegsFrom_ST (i : Nat) (bs : List Byte) : (s.setRegsFrom i bs).ST = s.ST := by
  induction bs generalizing s i with
  | nil => rfl
  | cons b bs ih => rw [setRegsFrom, ih]; split <;> rfl
@[simp] theorem setRegsFrom_keys (i : Nat) (bs : List Byte) : (s.setRegsFrom i bs).keys = s.keys := by
  induction bs generalizing s i with
  | nil => rfl
  | cons b bs ih => rw [setRegsFrom, ih]; split <;> rfl
@[simp] theorem setRegsFrom_disp (i : Nat) (bs : List Byte) : (s.setRegsFrom i bs).disp = s.disp := by
  induction bs generalizing s i with
  | nil => rfl
  | cons b bs ih => rw [setRegsFrom, ih]; split <;> rfl
@[simp] theorem setRegsFrom_fault (i : Nat) (bs : List Byte) : (s.setRegsFrom i bs).fault = s.fault := by
  induction bs generalizing s i with
  | nil => rfl
  | cons b bs ih => rw [setRegsFrom, ih]; split <;> rfl
@[simp] theorem setRegsFrom_source (i : Nat) (bs : List Byte) : (s.setRegsFrom i bs).source = s.source := by
  induction bs generalizing s i with
  | nil => rfl
  | cons b bs ih => rw [setRegsFrom, ih]; split <;> rfl
@[simp] theorem setRegsFrom_byteAt (i : Nat) (bs : List Byte) (k : Nat) :
    (s.setRegsFrom i bs).byteAt k = s.byteAt k := by simp [byteAt]
@[simp] theorem setRegsFrom_pixel (i : Nat) (bs : List Byte) (p q : Nat) :
    (s.setRegsFrom i bs).pixel p q = s.pixel p q := by simp [pixel]

/-- `setRegsFrom i bs` writes `bs[0]` to `V[i]`, `bs[1]` to `V[i+1]` and so on, and leaves the other registers. -/
theorem getV_setRegsFrom (i : Nat) (bs : List Byte) (r : Reg) :
    (s.setRegsFrom i bs).getV r = if i ≤ r.val then bs.getD (r.val - i) (s.getV r) else s.getV r := by
  induction bs generalizing s i with
  | nil => simp [setRegsFrom]
  | cons b bs ih =>
    rw [setRegsFrom, ih]
    by_cases hi : i < Config.nRegs
    · rw [dif_pos hi]
      rcases Nat.lt_trichotomy r.val i with h | h | h
      · have : r ≠ ⟨i, hi⟩ := fun e => by simp [e] at h
        simp [this, show ¬ i ≤ r.val by omega, show ¬ i + 1 ≤ r.val by omega]
      · have : r = ⟨i, hi⟩ := Fin.ext h
        subst this
        simp
      · have hne : r ≠ ⟨i, hi⟩ := fun e => by simp [e] at h
        rw [if_pos (show i + 1 ≤ r.val by omega), if_pos (show i ≤ r.val by omega),
          show r.val - i = (r.val - (i + 1)) + 1 by omega]
        simp [hne]
    · have := r.isLt
      rw [dif_neg hi]
      simp only [Config.nRegs] at hi
      rw [ if_neg (by omega), if_neg (by omega)]

/-! ### The engine and the random source -/

@[simp] theorem countDraw_toEngine : s.countDraw.toEngine = s.toEngine := rfl

/-- The engine and the source are all there is. -/
theorem ext_engine (s t : State) (he : s.toEngine = t.toEngine) (hs : s.source = t.source) : s = t := by
  cases s; cases t; simp_all

/-! ### The ranges of the registers, as numbers (R8) -/

theorem I_toNat_lt : s.I.toNat < 65536 := s.I.isLt
theorem pc_toNat_lt : s.pc.toNat < 65536 := s.pc.isLt
theorem sp_toNat_lt : s.sp.toNat < 65536 := s.sp.isLt
theorem DT_toNat_lt : s.DT.toNat < 256 := s.DT.isLt
theorem ST_toNat_lt : s.ST.toNat < 256 := s.ST.isLt
theorem getV_toNat_lt (x : Reg) : (s.getV x).toNat < 256 := (s.getV x).isLt

/-! ### The reset state (R37) -/

@[simp] theorem reset_mem : reset.mem = [] := rfl
@[simp] theorem reset_I : reset.I = 0 := rfl
@[simp] theorem reset_pc : reset.pc = 0x200 := rfl
@[simp] theorem reset_sp : reset.sp = 0xF00 := rfl
@[simp] theorem reset_DT : reset.DT = 0 := rfl
@[simp] theorem reset_ST : reset.ST = 0 := rfl
@[simp] theorem reset_keys : reset.keys = 0 := rfl
@[simp] theorem reset_fault : reset.fault = none := rfl

theorem reset_getV (r : Reg) : reset.getV r = 0 := by simp [reset, Engine.reset, getV]

theorem reset_pixel (p q : Nat) : reset.pixel p q = false := by
  simp [pixel, reset, Engine.reset]

end State

/-! ### Fault entry and the timer step -/

variable (s : State)

@[simp] theorem takeFault_mem (r : Raise) : (takeFault s r).mem = s.mem := rfl
@[simp] theorem takeFault_V (r : Raise) : (takeFault s r).V = s.V := rfl
@[simp] theorem takeFault_I (r : Raise) : (takeFault s r).I = s.I := rfl
@[simp] theorem takeFault_pc (r : Raise) : (takeFault s r).pc = s.pc := rfl
@[simp] theorem takeFault_sp (r : Raise) : (takeFault s r).sp = s.sp := rfl
@[simp] theorem takeFault_DT (r : Raise) : (takeFault s r).DT = s.DT := rfl
@[simp] theorem takeFault_ST (r : Raise) : (takeFault s r).ST = s.ST := rfl
@[simp] theorem takeFault_keys (r : Raise) : (takeFault s r).keys = s.keys := rfl
@[simp] theorem takeFault_disp (r : Raise) : (takeFault s r).disp = s.disp := rfl
@[simp] theorem takeFault_fault (r : Raise) : (takeFault s r).fault = some { cause := r.cause, faultPc := s.pc, faultInfo := r.info } := rfl
@[simp] theorem takeFault_source (r : Raise) : (takeFault s r).source = s.source := rfl
@[simp] theorem takeFault_getV (r : Raise) (x : Reg) : (takeFault s r).getV x = s.getV x := rfl
@[simp] theorem takeFault_byteAt (r : Raise) (k : Nat) : (takeFault s r).byteAt k = s.byteAt k := rfl
@[simp] theorem takeFault_pixel (r : Raise) (p q : Nat) : (takeFault s r).pixel p q = s.pixel p q := rfl

@[simp] theorem timerStep_mem : (timerStep s).mem = s.mem := rfl
@[simp] theorem timerStep_V : (timerStep s).V = s.V := rfl
@[simp] theorem timerStep_I : (timerStep s).I = s.I := rfl
@[simp] theorem timerStep_pc : (timerStep s).pc = s.pc := rfl
@[simp] theorem timerStep_sp : (timerStep s).sp = s.sp := rfl
@[simp] theorem timerStep_DT : (timerStep s).DT = countDown s.DT := rfl
@[simp] theorem timerStep_ST : (timerStep s).ST = countDown s.ST := rfl
@[simp] theorem timerStep_keys : (timerStep s).keys = s.keys := rfl
@[simp] theorem timerStep_disp : (timerStep s).disp = s.disp := rfl
@[simp] theorem timerStep_fault : (timerStep s).fault = s.fault := rfl
@[simp] theorem timerStep_source : (timerStep s).source = s.source := rfl
@[simp] theorem timerStep_getV (x : Reg) : (timerStep s).getV x = s.getV x := rfl
@[simp] theorem timerStep_byteAt (k : Nat) : (timerStep s).byteAt k = s.byteAt k := rfl
@[simp] theorem timerStep_pixel (p q : Nat) : (timerStep s).pixel p q = s.pixel p q := rfl

end Sys2Proof.Machine
end

