-- ==== Sys2Proof/Laws/Ops.lean ====
section
/-! SUPPORT. One lemma per shared operation of Machine/Ops.lean that says everything it can do. -/

namespace Sys2Proof.Machine

/-! ### Words and bytes -/

/-- A big-endian word is high byte times 256 plus low byte (R60, R62). -/
theorem wordOfBytes_toNat (h l : Byte) : (wordOfBytes h l).toNat = h.toNat * 256 + l.toNat := by
  have hl := l.isLt
  have := BitVec.toNat_append h l
  rw [← Nat.shiftLeft_add_eq_or_of_lt hl, Nat.shiftLeft_eq] at this
  exact this

theorem highByte_toNat (w : Word) : (highByte w).toNat = w.toNat / 256 := by
  have := w.isLt
  simp [highByte, Nat.shiftRight_eq_div_pow]
  omega

theorem lowByte_toNat (w : Word) : (lowByte w).toNat = w.toNat % 256 := by simp [lowByte]

@[simp] theorem wordOfBytes_high_low (w : Word) : wordOfBytes (highByte w) (lowByte w) = w := by
  apply BitVec.eq_of_toNat_eq
  rw [wordOfBytes_toNat, highByte_toNat, lowByte_toNat]
  omega

@[simp] theorem highByte_wordOfBytes (h l : Byte) : highByte (wordOfBytes h l) = h := by
  apply BitVec.eq_of_toNat_eq
  have := l.isLt
  rw [highByte_toNat, wordOfBytes_toNat]
  omega

@[simp] theorem lowByte_wordOfBytes (h l : Byte) : lowByte (wordOfBytes h l) = l := by
  apply BitVec.eq_of_toNat_eq
  have := l.isLt
  rw [lowByte_toNat, wordOfBytes_toNat]
  omega

/-! ### The bound check -/

/-- The bound check passes exactly when no byte or only bytes of memory are touched (R66). -/
theorem guardFootprint_cases {α : Type} (a n : Nat) (v : α) :
    ((n = 0 ∨ a + n ≤ 4096) ∧ guardFootprint a n v = .ok v) ∨
    (0 < n ∧ 4096 < a + n ∧ guardFootprint a n v =
      .error { cause := .dataOutOfBounds, info := BitVec.ofNat 17 (max a 4096) }) := by
  simp only [guardFootprint, Config.memSize]
  split
  · left; exact ⟨by omega, rfl⟩
  · right; exact ⟨by omega, by omega, rfl⟩

theorem guardFootprint_ok {α : Type} (a n : Nat) (v : α) (h : n = 0 ∨ a + n ≤ 4096) : guardFootprint a n v = .ok v := by
  simp only [guardFootprint, Config.memSize]; rw [if_pos (by omega)]

theorem guardFootprint_error {α : Type} (a n : Nat) (v : α) (h0 : 0 < n) (h : 4096 < a + n) :
    guardFootprint a n v = .error { cause := .dataOutOfBounds, info := BitVec.ofNat 17 (max a 4096) } := by
  simp only [guardFootprint, Config.memSize]; rw [if_neg (by omega)]

/-! ### The cycle of a decoded instruction -/

/-- Everything a cycle with a body can do: it always answers a next state, which is the body's result on the advanced
state, or the state at the start of the cycle with the fault latched (R125, R266). -/
theorem runBody_cases (body : State → Except Raise State) (s : State) :
    (∃ t, body s.advance = .ok t ∧ runBody body s = .next t) ∨
    (∃ r, body s.advance = .error r ∧ runBody body s = .next (takeFault s r)) := by
  unfold runBody
  cases h : body s.advance with
  | ok t => exact .inl ⟨t, rfl, rfl⟩
  | error r => exact .inr ⟨r, rfl, rfl⟩

theorem runBody_ok {body : State → Except Raise State} {s t : State} (h : body s.advance = .ok t) :
    runBody body s = .next t := by simp [runBody, h]

theorem runBody_error {body : State → Except Raise State} {s : State} {r : Raise} (h : body s.advance = .error r) :
    runBody body s = .next (takeFault s r) := by simp [runBody, h]

@[simp] theorem runPlain_eq (body : State → State) (s : State) : runPlain body s = .next (body s.advance) := rfl

/-! ### The memory primitives -/

/-- Stored bytes inside memory: the state with memory written, nothing else (R64). -/
theorem storeBytes_ok (s : State) (a : Nat) (bs : List Byte) (h : bs.length = 0 ∨ a + bs.length ≤ 4096) :
    s.storeBytes a bs = .ok (s.setMem (s.mem.writes a bs)) := guardFootprint_ok _ _ _ h

/-- Loaded bytes inside memory (R63). -/
theorem loadBytes_ok (s : State) (a n : Nat) (h : n = 0 ∨ a + n ≤ 4096) :
    s.loadBytes a n = .ok (s.mem.reads a n) := guardFootprint_ok _ _ _ h

/-- A loaded word inside memory (R65). -/
theorem loadWord_ok (s : State) (a : Nat) (h : a ≤ 4094) :
    s.loadWord a = .ok (wordOfBytes (s.byteAt a) (s.byteAt (a + 1))) := guardFootprint_ok _ _ _ (by omega)

@[simp] theorem bytesOfWord_length (w : Word) : (bytesOfWord w).length = 2 := rfl

/-- A stored word inside memory (R65). -/
theorem storeWord_ok (s : State) (a : Nat) (w : Word) (h : a ≤ 4094) :
    s.storeWord a w = .ok (s.setMem (s.mem.writes a (bytesOfWord w))) :=
  storeBytes_ok _ _ _ (by simp; omega)

theorem fetch_ok (s : State) (h : s.pc.toNat ≤ 4094) :
    fetch s = .ok (wordOfBytes (s.byteAt s.pc.toNat) (s.byteAt (s.pc.toNat + 1))) := by
  simp only [fetch, Config.memSize]; rw [if_neg (by omega)]

theorem fetch_error (s : State) (h : 4094 < s.pc.toNat) :
    fetch s = .error { cause := .fetchOutOfBounds, info := s.pc.setWidth 17 } := by
  simp only [fetch, Config.memSize]; rw [if_pos (by omega)]

/-- The placed word is what the next fetch reads. -/
theorem fetch_placeFetchWord (s : State) (w : Word) : fetch (placeFetchWord s w) = .ok w := by
  have hpc : (placeFetchWord s w).pc.toNat ≤ 4094 := by
    simp only [placeFetchWord, Config.memSize]
    split
    · omega
    · decide
  rw [fetch_ok _ hpc]
  simp only [placeFetchWord, State.byteAt, bytesOfWord, Memory.writes]
  rw [Memory.read_write_other _ _ _ _ (by omega), Memory.read_write_same, Memory.read_write_same, wordOfBytes_high_low]

@[simp] theorem placeFetchWord_fault (s : State) (w : Word) : (placeFetchWord s w).fault = none := rfl

/-! ### Reset -/

/-- An image of at most 3584 bytes is accepted: the engine that results depends on the image alone (R300, R302). -/
theorem construct_ok (image : List Byte) (stream : Nat) (h : image.length ≤ 3584) :
    construct image stream = .next
      { Engine.reset with mem := Engine.reset.mem.writes 512 image, source := ⟨stream, 0⟩ } := by
  simp only [construct, Config.maxProgBytes]; rw [if_pos h]; rfl

/-- A longer image is refused (R301). -/
theorem construct_refused (image : List Byte) (stream : Nat) (h : 3584 < image.length) :
    construct image stream = .refused (.oversizedImage image.length) := by
  simp only [construct, Config.maxProgBytes]; rw [if_neg (by omega)]

/-- What memory holds after a reset that is accepted (R37). -/
theorem construct_mem_read (image : List Byte) (a : Nat) :
    (Engine.reset.mem.writes 512 image).read a =
      if 512 ≤ a then image.getD (a - 512) (Memory.unlisted a) else Memory.unlisted a := by
  rw [Memory.read_writes]; rfl

end Sys2Proof.Machine
end

