-- ==== Sys2Proof/Laws/Operands.lean ====
section
/-! SUPPORT. One lemma per operand form of Machine/Operands.lean and per flag of Machine/Flags.lean. -/

namespace Sys2Proof.Machine

/-! ### Flags -/

@[simp] theorem flagByte_true : flagByte true = 1 := rfl
@[simp] theorem flagByte_false : flagByte false = 0 := rfl

theorem flagByte_eq_one_iff (b : Bool) : flagByte b = 1 ↔ b = true := by cases b <;> decide
theorem flagByte_eq_zero_iff (b : Bool) : flagByte b = 0 ↔ b = false := by cases b <;> decide

/-- The sum is exact: 256 times the carry plus the wrapped sum (R182). -/
theorem carryOut_exact (a b : Byte) :
    a.toNat + b.toNat = (if carryOut a b then 256 else 0) + (a + b).toNat := by
  have := a.isLt
  have := b.isLt
  simp only [carryOut, BitVec.toNat_add, decide_eq_true_eq]
  split <;> omega

/-- The difference is exact: the wrapped difference less 256 when a borrow occurs (R182). -/
theorem notBorrow_exact (a b : Byte) :
    a.toNat + (if notBorrow a b then 0 else 256) = b.toNat + (a - b).toNat := by
  have := a.isLt
  have := b.isLt
  by_cases h : a.toNat < b.toNat
  · simp only [notBorrow, h, decide_true, Bool.not_true, BitVec.toNat_sub]; simp; omega
  · simp only [notBorrow, h, decide_false, Bool.not_false, if_true, BitVec.toNat_sub]; omega

/-! ### Literals and register lists -/

@[simp] theorem literalWord_toNat (nnn : Literal12) : (literalWord nnn).toNat = nnn.toNat := by
  have := nnn.isLt
  simp [literalWord]; omega

@[simp] theorem byteWord_toNat (b : Byte) : (byteWord b).toNat = b.toNat := by
  have := b.isLt
  simp [byteWord]; omega

@[simp] theorem regsUpTo_length (s : State) (x : Reg) : (s.regsUpTo x).length = x.val + 1 := by
  have := x.isLt
  simp [State.regsUpTo]

theorem regsUpTo_getD (s : State) (x r : Reg) (d : Byte) (h : r.val ≤ x.val) :
    (s.regsUpTo x).getD r.val d = s.getV r := by
  have := r.isLt
  simp [State.regsUpTo, State.getV, List.getD_eq_getElem?_getD, show r.val < x.val + 1 by omega]

@[simp] theorem decimalDigits_length (b : Byte) : (decimalDigits b).length = 3 := rfl

theorem glyphAddress_toNat (b : Byte) : (glyphAddress b).toNat = 5 * (b.toNat % 16) := by
  simp [glyphAddress, Config.glyphBytes]; omega

/-! ### Keys -/

/-- What the search for a set bit finds: the first one from `j` up, or none in the range. -/
theorem lowestSetFrom_cases (k : Word) (fuel j : Nat) :
    (k.getLsbD (lowestSetFrom k fuel j) = true ∧ j ≤ lowestSetFrom k fuel j ∧ lowestSetFrom k fuel j < j + fuel ∧
      ∀ i, j ≤ i → i < lowestSetFrom k fuel j → k.getLsbD i = false) ∨
    (lowestSetFrom k fuel j = j + fuel ∧ ∀ i, j ≤ i → i < j + fuel → k.getLsbD i = false) := by
  induction fuel generalizing j with
  | zero => right; exact ⟨rfl, fun i _ _ => by omega⟩
  | succ fuel ih =>
    rw [lowestSetFrom]
    split
    · left; exact ⟨‹_›, le_refl _, by omega, fun i _ _ => by omega⟩
    · rename_i hne
      have hj : k.getLsbD j = false := by simpa using hne
      rcases ih (j + 1) with ⟨h1, h2, h3, h4⟩ | ⟨h1, h2⟩
      · left
        refine ⟨h1, by omega, by omega, fun i hi hlt => ?_⟩
        rcases Nat.eq_or_lt_of_le hi with rfl | h
        · exact hj
        · exact h4 i h hlt
      · right
        refine ⟨by omega, fun i hi hlt => ?_⟩
        rcases Nat.eq_or_lt_of_le hi with rfl | h
        · exact hj
        · exact h2 i h (by omega)

/-- `lowest_set_bit(k)` for `k ≠ 0` is the least set bit, 0 to 15 (R10). -/
theorem lowestSetBit_spec (k : Word) (h : k ≠ 0) :
    lowestSetBit k < 16 ∧ k.getLsbD (lowestSetBit k) = true ∧ ∀ i < lowestSetBit k, k.getLsbD i = false := by
  rcases lowestSetFrom_cases k 16 0 with ⟨h1, _, h3, h4⟩ | ⟨_, h2⟩
  · exact ⟨h3, h1, fun i hi => h4 i (Nat.zero_le _) hi⟩
  · refine absurd ?_ h
    apply BitVec.eq_of_getLsbD_eq
    intro i hi
    simpa using h2 i (Nat.zero_le _) (by omega)

/-- Everything a key body can do (R240, R241, R273). -/
theorem withKey_cases (x : Reg) (body : Bool → State → State) (s : State) :
    ((s.getV x).toNat ≤ 15 ∧ withKey x body s = .ok (body (s.keys.getLsbD (s.getV x).toNat) s)) ∨
    (15 < (s.getV x).toNat ∧
      withKey x body s = .error { cause := .keyIndexOutOfRange, info := (s.getV x).setWidth 17 }) := by
  simp only [withKey, Config.nKeys]
  split
  · right; exact ⟨by omega, rfl⟩
  · left; exact ⟨by omega, rfl⟩

/-! ### Sprites -/

theorem spriteMask_eq (b : Byte) (x0 : Nat) : spriteMask b x0 = (b.setWidth 64 <<< 56) >>> x0 := rfl

/-- One row of the sprite loop (R221). -/
theorem blit_cons (d : Vector Row 32) (x0 y : Nat) (b : Byte) (bs : List Byte) :
    blit d x0 y (b :: bs) =
      if h : y < 32 then
        ((blit (d.set y (d[y] ^^^ spriteMask b x0)) x0 (y + 1) bs).1,
          (d[y] &&& spriteMask b x0 != 0) || (blit (d.set y (d[y] ^^^ spriteMask b x0)) x0 (y + 1) bs).2)
      else (d, false) := rfl

/-- The mask in pixel terms: column `x` shows bit `7 - (x - x0)` of the sprite byte for the eight columns from `x0` on,
nothing elsewhere; columns past 63 do not exist (R221). -/
theorem spriteMask_pixel (b : Byte) (x0 x : Nat) (hx : x < 64) :
    (spriteMask b x0).getLsbD (63 - x) = (decide (x0 ≤ x ∧ x < x0 + 8) && b.getLsbD (7 - (x - x0))) := by
  simp only [spriteMask_eq, BitVec.getLsbD_ushiftRight, BitVec.getLsbD_shiftLeft, BitVec.getLsbD_setWidth]
  by_cases h0 : x0 ≤ x
  · by_cases h1 : x < x0 + 8
    · have e : x0 + (63 - x) - 56 = 7 - (x - x0) := by omega
      simp [h0, h1, e, show x0 + (63 - x) < 64 by omega, show ¬ x0 + (63 - x) < 56 by omega,
        show 7 - (x - x0) < 64 by omega]
    · simp [h1, show x0 + (63 - x) < 56 by omega]
  · simp [h0, show ¬ x0 + (63 - x) < 64 by omega]

/-- The pixel of a display buffer. -/
def pixelOf (d : Vector Row 32) (x y : Nat) : Bool := if h : y < 32 then d[y].getLsbD (63 - x) else false

theorem pixel_eq_pixelOf (s : State) (x y : Nat) : s.pixel x y = pixelOf s.disp x y := rfl

/-- The bit a sprite of bytes `bs` at column `x0`, row `y0` puts on pixel `(x, y)`. -/
def spriteBit (bs : List Byte) (x0 y0 x y : Nat) : Bool :=
  decide (x0 ≤ x ∧ x < x0 + 8 ∧ y0 ≤ y ∧ y < y0 + bs.length) && (bs.getD (y - y0) 0).getLsbD (7 - (x - x0))

theorem spriteBit_nil (x0 y0 x y : Nat) : spriteBit [] x0 y0 x y = false := by simp [spriteBit]

theorem spriteBit_cons (b : Byte) (bs : List Byte) (x0 y0 x y : Nat) :
    spriteBit (b :: bs) x0 y0 x y =
      ((decide (y = y0) && (decide (x0 ≤ x ∧ x < x0 + 8) && b.getLsbD (7 - (x - x0)))) ||
        spriteBit bs x0 (y0 + 1) x y) := by
  rcases Nat.lt_trichotomy y y0 with h | h | h
  · simp [spriteBit, show ¬ y0 ≤ y by omega, show ¬ y0 + 1 ≤ y by omega, show ¬ y = y0 by omega]
  · subst h; simp [spriteBit]
  · have e : y - y0 = (y - (y0 + 1)) + 1 := by omega
    simp only [spriteBit, e, List.getD_cons_succ, List.length_cons]
    simp [show y0 ≤ y by omega, show y0 + 1 ≤ y by omega, show ¬ y = y0 by omega]
    grind

theorem pixelOf_set (d : Vector Row 32) (y0 x y : Nat) (h : y0 < 32) (r : Row) :
    pixelOf (d.set y0 r) x y = if y = y0 then r.getLsbD (63 - x) else pixelOf d x y := by
  unfold pixelOf
  by_cases hy : y < 32
  · by_cases e : y = y0
    · subst e; simp [h]
    · have : ¬ y0 = y := fun q => e q.symm
      simp [hy, e, this]
  · simp [hy, show ¬ y = y0 by omega]

/-- The sprite loop in pixel terms: every pixel of the screen is exclusive-ORed with the sprite's bit on it (R221). -/
theorem blit_pixel (d : Vector Row 32) (x0 y0 : Nat) (bs : List Byte) (x y : Nat) (hx : x < 64) (hy : y < 32) :
    pixelOf (blit d x0 y0 bs).1 x y = (pixelOf d x y ^^ spriteBit bs x0 y0 x y) := by
  induction bs generalizing d y0 with
  | nil => simp [blit, spriteBit_nil]
  | cons b bs ih =>
    rw [blit_cons]
    split
    · rename_i h
      simp only [ih, pixelOf_set _ _ _ _ h, spriteBit_cons]
      by_cases e : y = y0
      · subst e
        have : spriteBit bs x0 (y + 1) x y = false := by simp [spriteBit]
        simp only [if_true, this, BitVec.getLsbD_xor, spriteMask_pixel _ _ _ hx, pixelOf, dif_pos h]
        simp
      · simp [e]
    · rename_i h
      have : spriteBit (b :: bs) x0 y0 x y = false := by simp [spriteBit, show ¬ y0 ≤ y by omega]
      simp [this]

theorem spriteMask_lsb (b : Byte) (x0 i : Nat) (h : (spriteMask b x0).getLsbD i = true) : i < 64 :=
  BitVec.lt_of_getLsbD h

/-- The collision flag in pixel terms: some pixel of the screen was lit and has the sprite's bit on it (R221). -/
theorem blit_collision (d : Vector Row 32) (x0 y0 : Nat) (bs : List Byte) :
    (blit d x0 y0 bs).2 = true ↔
      ∃ x y, x < 64 ∧ y < 32 ∧ pixelOf d x y = true ∧ spriteBit bs x0 y0 x y = true := by
  induction bs generalizing d y0 with
  | nil => simp [blit, spriteBit_nil]
  | cons b bs ih =>
    rw [blit_cons]
    split
    · rename_i h
      simp only [Bool.or_eq_true, ih, bne_iff_ne, ne_eq, spriteBit_cons, pixelOf_set _ _ _ _ h]
      constructor
      · rintro (hne | ⟨x, y, hx, hy, hp, hs⟩)
        · obtain ⟨i, hi⟩ : ∃ i, (d[y0] &&& spriteMask b x0).getLsbD i = true := by
            by_contra hall
            refine hne (BitVec.eq_of_getLsbD_eq fun i _ => ?_)
            have := not_exists.mp hall i
            simpa using this
          rw [BitVec.getLsbD_and, Bool.and_eq_true] at hi
          have hi64 := spriteMask_lsb _ _ _ hi.2
          have e : 63 - (63 - i) = i := by omega
          refine ⟨63 - i, y0, by omega, h, ?_, ?_⟩
          · simp [pixelOf, h, e, hi.1]
          · have := spriteMask_pixel b x0 (63 - i) (by omega)
            rw [e, hi.2] at this
            rw [← this]
            simp
        · have hy0 : y ≠ y0 := by
            rintro rfl
            simp [spriteBit] at hs
          refine ⟨x, y, hx, hy, ?_, ?_⟩
          · simpa [hy0] using hp
          · simp [hs]
      · rintro ⟨x, y, hx, hy, hp, hs⟩
        by_cases e : y = y0
        · subst e
          left
          have h2 : spriteBit bs x0 (y + 1) x y = false := by simp [spriteBit]
          rw [h2, decide_eq_true rfl, Bool.true_and, ← spriteMask_pixel b x0 x hx] at hs
          replace hs := hs.resolve_right Bool.false_ne_true
          intro hz
          have := congrArg (fun v => BitVec.getLsbD v (63 - x)) hz
          simp only [BitVec.getLsbD_and, hs, Bool.and_true] at this
          simp [pixelOf, h] at hp
          rw [hp] at this
          simp at this
        · right
          refine ⟨x, y, hx, hy, by simpa [e] using hp, ?_⟩
          simpa [e] using hs
    · rename_i h
      constructor
      · intro hf; simp at hf
      · rintro ⟨x, y, hx, hy, _, hs⟩
        simp [spriteBit, show ¬ y0 ≤ y by omega] at hs

end Sys2Proof.Machine
end

