-- ==== Sys2Proof/Laws/Exec.lean ====
section
/-! SUPPORT. The meanings as equations over the shared operations. A meaning that cannot raise is its body on the advanced
state (`runPlain_eq`); of each one that can, one equation says when it completes and to what state, one when it raises and
with what (41_control_flow.md to 45_keys_timers.md, 60_exceptions.md R265). -/

namespace Sys2Proof.Machine

variable (s : State)

/-! ### `00EE` -/

theorem exec_ret_ok (h : s.sp.toNat < 3840) : exec .ret s =
    .next ((s.advance.setPc (wordOfBytes (s.byteAt s.sp.toNat) (s.byteAt (s.sp.toNat + 1)))).setSp (s.sp + 2)) := by
  have hs : ¬ Config.stackBase ≤ s.advance.sp := by
    simp only [State.advance_sp, BitVec.le_def, Config.stackBase]; simp; omega
  simp only [exec, execRet]
  refine runBody_ok ?_
  rw [if_neg hs, loadWord_ok _ _ (by simp; omega)]
  rfl

theorem exec_ret_fault (h : 3840 ≤ s.sp.toNat) : exec .ret s =
    .next (takeFault s { cause := .stackUnderflow, info := s.sp.setWidth 17 }) := by
  have hs : Config.stackBase ≤ s.advance.sp := by
    simp only [State.advance_sp, BitVec.le_def, Config.stackBase]; simpa using h
  simp only [exec, execRet]
  refine runBody_error ?_
  rw [if_pos hs]
  rfl

/-! ### `2NNN` -/

theorem call_slot (h : 3584 < s.sp.toNat) : (s.sp - 2).toNat = s.sp.toNat - 2 := by
  have := s.sp_toNat_lt
  rw [BitVec.toNat_sub]; simp; omega

theorem exec_call_ok (nnn : Literal12) (h : 3584 < s.sp.toNat) (h2 : s.sp.toNat ≤ 4096) : exec (.call nnn) s =
    .next (((s.advance.setMem (s.mem.writes (s.sp.toNat - 2) (bytesOfWord (s.pc + 2)))).setSp (s.sp - 2)).setPc
      (literalWord nnn)) := by
  have hs : ¬ s.advance.sp ≤ Config.stackLimit := by
    simp only [State.advance_sp, BitVec.le_def, Config.stackLimit]; simp; omega
  have hslot := call_slot s h
  simp only [exec, execCall]
  refine runBody_ok ?_
  rw [if_neg hs, storeWord_ok _ _ _ (by simp only [State.advance_sp]; omega)]
  simp only [State.advance_sp, hslot]
  rfl

theorem exec_call_overflow (nnn : Literal12) (h : s.sp.toNat ≤ 3584) : exec (.call nnn) s =
    .next (takeFault s { cause := .stackOverflow, info := s.sp.setWidth 17 }) := by
  have hs : s.advance.sp ≤ Config.stackLimit := by
    simp only [State.advance_sp, BitVec.le_def, Config.stackLimit]; simpa using h
  simp only [exec, execCall]
  refine runBody_error ?_
  rw [if_pos hs]
  rfl

theorem exec_call_outside (nnn : Literal12) (h : 4096 < s.sp.toNat) : exec (.call nnn) s =
    .next (takeFault s { cause := .dataOutOfBounds, info := BitVec.ofNat 17 (max (s.sp.toNat - 2) 4096) }) := by
  have hs : ¬ s.advance.sp ≤ Config.stackLimit := by
    simp only [State.advance_sp, BitVec.le_def, Config.stackLimit]; simp; omega
  have hslot := call_slot s (by omega)
  simp only [exec, execCall]
  refine runBody_error ?_
  rw [if_neg hs, State.storeWord, State.storeBytes, guardFootprint_error _ _ _ (by simp)
    (by simp only [State.advance_sp, bytesOfWord_length]; omega)]
  simp only [State.advance_sp, hslot]
  rfl

/-! ### `EX9E` and `EXA1` -/

theorem exec_skp_ok (x : Reg) (h : (s.getV x).toNat ≤ 15) :
    exec (.skp x) s = .next (s.advance.skipIf (s.keys.getLsbD (s.getV x).toNat)) := by
  simp only [exec, execSkp]
  refine runBody_ok ?_
  unfold withKey
  rw [if_neg (by simp only [State.advance_getV, Config.nKeys]; omega)]
  rfl

theorem exec_sknp_ok (x : Reg) (h : (s.getV x).toNat ≤ 15) :
    exec (.sknp x) s = .next (s.advance.skipIf (!s.keys.getLsbD (s.getV x).toNat)) := by
  simp only [exec, execSknp]
  refine runBody_ok ?_
  unfold withKey
  rw [if_neg (by simp only [State.advance_getV, Config.nKeys]; omega)]
  rfl

theorem exec_skp_fault (x : Reg) (h : 15 < (s.getV x).toNat) : exec (.skp x) s =
    .next (takeFault s { cause := .keyIndexOutOfRange, info := (s.getV x).setWidth 17 }) := by
  simp only [exec, execSkp]
  refine runBody_error ?_
  unfold withKey
  rw [if_pos (by simp only [State.advance_getV, Config.nKeys]; omega)]
  rfl

theorem exec_sknp_fault (x : Reg) (h : 15 < (s.getV x).toNat) : exec (.sknp x) s =
    .next (takeFault s { cause := .keyIndexOutOfRange, info := (s.getV x).setWidth 17 }) := by
  simp only [exec, execSknp]
  refine runBody_error ?_
  unfold withKey
  rw [if_pos (by simp only [State.advance_getV, Config.nKeys]; omega)]
  rfl

/-! ### `FX33`, `FX55`, `FX65`, `DXYN` -/

/-- The fault of a footprint that begins at `I` and passes address 4095 (R268). -/
abbrev indexFault : Raise := { cause := .dataOutOfBounds, info := BitVec.ofNat 17 (max s.I.toNat 4096) }

theorem exec_ldB_ok (x : Reg) (h : s.I.toNat + 3 ≤ 4096) :
    exec (.ldB x) s = .next (s.advance.setMem (s.mem.writes s.I.toNat (decimalDigits (s.getV x)))) := by
  simp only [exec, execLdB]
  exact runBody_ok (storeBytes_ok _ _ _ (.inr h))

theorem exec_ldB_fault (x : Reg) (h : 4096 < s.I.toNat + 3) : exec (.ldB x) s = .next (takeFault s (indexFault s)) := by
  simp only [exec, execLdB]
  exact runBody_error (guardFootprint_error _ _ _ (by simp) h)

theorem exec_storeRegs_ok (x : Reg) (h : s.I.toNat + (x.val + 1) ≤ 4096) :
    exec (.storeRegs x) s = .next (s.advance.setMem (s.mem.writes s.I.toNat (s.regsUpTo x))) := by
  simp only [exec, execStoreRegs]
  exact runBody_ok (storeBytes_ok _ _ _ (.inr (by simpa using h)))

theorem exec_storeRegs_fault (x : Reg) (h : 4096 < s.I.toNat + (x.val + 1)) :
    exec (.storeRegs x) s = .next (takeFault s (indexFault s)) := by
  simp only [exec, execStoreRegs]
  exact runBody_error (guardFootprint_error _ _ _ (by simp) (by simpa using h))

theorem exec_loadRegs_ok (x : Reg) (h : s.I.toNat + (x.val + 1) ≤ 4096) :
    exec (.loadRegs x) s = .next (s.advance.setRegsFrom 0 (s.mem.reads s.I.toNat (x.val + 1))) := by
  simp only [exec, execLoadRegs]
  refine runBody_ok ?_
  rw [loadBytes_ok _ _ _ (.inr (by simpa using h))]
  rfl

theorem exec_loadRegs_fault (x : Reg) (h : 4096 < s.I.toNat + (x.val + 1)) :
    exec (.loadRegs x) s = .next (takeFault s (indexFault s)) := by
  simp only [exec, execLoadRegs]
  refine runBody_error ?_
  rw [State.loadBytes, guardFootprint_error _ _ _ (by simp) (by simpa using h)]
  rfl

/-- The blit of a `DXYN`: the start position wraps, the bytes are the `N` from `I` up (R221). -/
abbrev drawn (x y : Reg) (n : Nibble) : Vector Row 32 × Bool :=
  blit s.disp ((s.getV x).toNat % 64) ((s.getV y).toNat % 32) (s.mem.reads s.I.toNat n.toNat)

theorem exec_drw_ok (x y : Reg) (n : Nibble) (h : n.toNat = 0 ∨ s.I.toNat + n.toNat ≤ 4096) :
    exec (.drw x y n) s = .next ((s.advance.setDisp (drawn s x y n).1).setFlag (drawn s x y n).2) := by
  simp only [exec, execDrw]
  refine runBody_ok ?_
  rw [loadBytes_ok _ _ _ (by simpa using h)]
  rfl

theorem exec_drw_fault (x y : Reg) (n : Nibble) (h0 : 0 < n.toNat) (h : 4096 < s.I.toNat + n.toNat) :
    exec (.drw x y n) s = .next (takeFault s (indexFault s)) := by
  simp only [exec, execDrw]
  refine runBody_error ?_
  rw [State.loadBytes, guardFootprint_error _ _ _ h0 (by simpa using h)]
  rfl

/-! ### Every instruction -/

/-- Fault entry and completion are the only ends of an instruction (R125, R260): it raises and then the state is the one
at the start of the cycle with the latch set, or it completes and leaves the latch. -/
theorem exec_cases (i : Instr) :
    (∃ r, exec i s = .next (takeFault s r)) ∨ (∃ t, exec i s = .next t ∧ t.fault = s.fault) := by
  cases i with
  | ret =>
    by_cases h : s.sp.toNat < 3840
    · exact .inr ⟨_, exec_ret_ok s h, by simp⟩
    · exact .inl ⟨_, exec_ret_fault s (by omega)⟩
  | call nnn =>
    by_cases h : 3584 < s.sp.toNat
    · by_cases h2 : s.sp.toNat ≤ 4096
      · exact .inr ⟨_, exec_call_ok s nnn h h2, by simp⟩
      · exact .inl ⟨_, exec_call_outside s nnn (by omega)⟩
    · exact .inl ⟨_, exec_call_overflow s nnn (by omega)⟩
  | drw x y n =>
    by_cases h : n.toNat = 0 ∨ s.I.toNat + n.toNat ≤ 4096
    · exact .inr ⟨_, exec_drw_ok s x y n h, by simp⟩
    · exact .inl ⟨_, exec_drw_fault s x y n (by omega) (by omega)⟩
  | skp x =>
    by_cases h : (s.getV x).toNat ≤ 15
    · exact .inr ⟨_, exec_skp_ok s x h, by simp⟩
    · exact .inl ⟨_, exec_skp_fault s x (by omega)⟩
  | sknp x =>
    by_cases h : (s.getV x).toNat ≤ 15
    · exact .inr ⟨_, exec_sknp_ok s x h, by simp⟩
    · exact .inl ⟨_, exec_sknp_fault s x (by omega)⟩
  | ldB x =>
    by_cases h : s.I.toNat + 3 ≤ 4096
    · exact .inr ⟨_, exec_ldB_ok s x h, by simp⟩
    · exact .inl ⟨_, exec_ldB_fault s x (by omega)⟩
  | storeRegs x =>
    by_cases h : s.I.toNat + (x.val + 1) ≤ 4096
    · exact .inr ⟨_, exec_storeRegs_ok s x h, by simp⟩
    · exact .inl ⟨_, exec_storeRegs_fault s x (by omega)⟩
  | loadRegs x =>
    by_cases h : s.I.toNat + (x.val + 1) ≤ 4096
    · exact .inr ⟨_, exec_loadRegs_ok s x h, by simp⟩
    · exact .inl ⟨_, exec_loadRegs_fault s x (by omega)⟩
  | ldVxK x => exact .inr ⟨_, rfl, by simp only; split <;> rfl⟩
  | _ => exact .inr ⟨_, rfl, by simp [rndBody]⟩

/-- Every instruction answers a next state. -/
theorem exec_next (i : Instr) : ∃ t, exec i s = .next t := by
  rcases exec_cases s i with ⟨r, h⟩ | ⟨t, h, _⟩
  · exact ⟨_, h⟩
  · exact ⟨t, h⟩

end Sys2Proof.Machine
end

