-- ==== Sys2Proof/Laws/PerInstr.lean ====
section
/-! SUPPORT. Statements made for every instruction, one lemma per constructor. Family `RowBits`: the assembled word of an
instruction has the fixed bits of its row of the opcode map (30_encoding.md R96), whatever its operands. -/

namespace Sys2Proof.Laws.RowBits

/-- The encoding agrees with the row's match under the row's mask (R96). -/
def Statement (i : Instr) : Prop := encode i &&& i.encMask = i.encMatch

theorem cls : Statement .cls := rfl
theorem ret : Statement .ret := rfl
theorem sys (nnn : Literal12) : Statement (.sys nnn) := (fixed_formatNNN _ _).trans rfl
theorem jp (nnn : Literal12) : Statement (.jp nnn) := (fixed_formatNNN _ _).trans rfl
theorem call (nnn : Literal12) : Statement (.call nnn) := (fixed_formatNNN _ _).trans rfl
theorem seImm (x : Reg) (nn : Byte) : Statement (.seImm x nn) := (fixed_formatXNN_major _ _ _).trans rfl
theorem sneImm (x : Reg) (nn : Byte) : Statement (.sneImm x nn) := (fixed_formatXNN_major _ _ _).trans rfl
theorem seReg (x : Reg) (y : Reg) : Statement (.seReg x y) := (fixed_formatXYN _ _ _ _).trans rfl
theorem ldImm (x : Reg) (nn : Byte) : Statement (.ldImm x nn) := (fixed_formatXNN_major _ _ _).trans rfl
theorem addImm (x : Reg) (nn : Byte) : Statement (.addImm x nn) := (fixed_formatXNN_major _ _ _).trans rfl
theorem ldReg (x : Reg) (y : Reg) : Statement (.ldReg x y) := (fixed_formatXYN _ _ _ _).trans rfl
theorem orReg (x : Reg) (y : Reg) : Statement (.orReg x y) := (fixed_formatXYN _ _ _ _).trans rfl
theorem andReg (x : Reg) (y : Reg) : Statement (.andReg x y) := (fixed_formatXYN _ _ _ _).trans rfl
theorem xorReg (x : Reg) (y : Reg) : Statement (.xorReg x y) := (fixed_formatXYN _ _ _ _).trans rfl
theorem addReg (x : Reg) (y : Reg) : Statement (.addReg x y) := (fixed_formatXYN _ _ _ _).trans rfl
theorem subReg (x : Reg) (y : Reg) : Statement (.subReg x y) := (fixed_formatXYN _ _ _ _).trans rfl
theorem shr (x : Reg) (y : Reg) : Statement (.shr x y) := (fixed_formatXYN _ _ _ _).trans rfl
theorem subnReg (x : Reg) (y : Reg) : Statement (.subnReg x y) := (fixed_formatXYN _ _ _ _).trans rfl
theorem shl (x : Reg) (y : Reg) : Statement (.shl x y) := (fixed_formatXYN _ _ _ _).trans rfl
theorem sneReg (x : Reg) (y : Reg) : Statement (.sneReg x y) := (fixed_formatXYN _ _ _ _).trans rfl
theorem ldI (nnn : Literal12) : Statement (.ldI nnn) := (fixed_formatNNN _ _).trans rfl
theorem jpV0 (nnn : Literal12) : Statement (.jpV0 nnn) := (fixed_formatNNN _ _).trans rfl
theorem rnd (x : Reg) (nn : Byte) : Statement (.rnd x nn) := (fixed_formatXNN_major _ _ _).trans rfl
theorem drw (x : Reg) (y : Reg) (n : Nibble) : Statement (.drw x y n) := (fixed_formatXYN_major _ _ _ _).trans rfl
theorem skp (x : Reg) : Statement (.skp x) := (fixed_formatXNN _ _ _).trans rfl
theorem sknp (x : Reg) : Statement (.sknp x) := (fixed_formatXNN _ _ _).trans rfl
theorem ldVxDT (x : Reg) : Statement (.ldVxDT x) := (fixed_formatXNN _ _ _).trans rfl
theorem ldVxK (x : Reg) : Statement (.ldVxK x) := (fixed_formatXNN _ _ _).trans rfl
theorem ldDTVx (x : Reg) : Statement (.ldDTVx x) := (fixed_formatXNN _ _ _).trans rfl
theorem ldSTVx (x : Reg) : Statement (.ldSTVx x) := (fixed_formatXNN _ _ _).trans rfl
theorem addI (x : Reg) : Statement (.addI x) := (fixed_formatXNN _ _ _).trans rfl
theorem ldF (x : Reg) : Statement (.ldF x) := (fixed_formatXNN _ _ _).trans rfl
theorem ldB (x : Reg) : Statement (.ldB x) := (fixed_formatXNN _ _ _).trans rfl
theorem storeRegs (x : Reg) : Statement (.storeRegs x) := (fixed_formatXNN _ _ _).trans rfl
theorem loadRegs (x : Reg) : Statement (.loadRegs x) := (fixed_formatXNN _ _ _).trans rfl

end Sys2Proof.Laws.RowBits
end

