-- ==== Sys2Proof/Laws/Step.lean ====
section
/-! SUPPORT. What a step, a run of cycles and a tick can do (40_cycle_and_tick.md R120, R126; 60_exceptions.md R266, R271). -/

namespace Sys2Proof.Machine

/-! ### The step -/

/-- Everything a step can do: stand still with a fault latched (R271), take the fetch fault (R267), pass an unrecognized
word (R262), or execute the decoded instruction (R124). -/
theorem step_cases (s : State) :
    (s.fault.isSome ∧ step s = .next s) ∨
    (s.fault = none ∧ 4094 < s.pc.toNat ∧
      step s = .next (takeFault s { cause := .fetchOutOfBounds, info := s.pc.setWidth 17 })) ∨
    (s.fault = none ∧ s.pc.toNat ≤ 4094 ∧
      ∃ w, fetch s = .ok w ∧ instrOfWord w = none ∧ step s = .next s.advance) ∨
    (s.fault = none ∧ s.pc.toNat ≤ 4094 ∧
      ∃ w i, fetch s = .ok w ∧ instrOfWord w = some i ∧ step s = exec i s) := by
  cases hf : s.fault with
  | some r => left; exact ⟨rfl, by simp [step, hf]⟩
  | none =>
    right
    by_cases hpc : 4094 < s.pc.toNat
    · left; exact ⟨rfl, hpc, by simp [step, hf, fetch_error s hpc]⟩
    · right
      obtain ⟨w, hw⟩ : ∃ w, fetch s = .ok w := ⟨_, fetch_ok s (by omega)⟩
      cases hi : instrOfWord w with
      | none => left; exact ⟨rfl, by omega, w, hw, hi, by simp [step, hf, hw, decodeWord, hi, runUnrecognized]⟩
      | some i => right; exact ⟨rfl, by omega, w, i, hw, hi, by simp [step, hf, hw, decodeWord, hi]⟩

/-- A step always answers a next state. -/
theorem step_next (s : State) : ∃ t, step s = .next t := by
  rcases step_cases s with ⟨_, h⟩ | ⟨_, _, h⟩ | ⟨_, _, _, _, _, h⟩ | ⟨_, _, _, i, _, _, h⟩
  · exact ⟨_, h⟩
  · exact ⟨_, h⟩
  · exact ⟨_, h⟩
  · obtain ⟨t, ht⟩ := exec_next s i
    exact ⟨t, h.trans ht⟩

/-- With a fault latched a step changes nothing (R271). -/
theorem step_faulted (s : State) (h : s.fault.isSome) : step s = .next s := by
  rcases step_cases s with ⟨_, e⟩ | ⟨hn, _⟩ | ⟨hn, _⟩ | ⟨hn, _⟩
  · exact e
  all_goals simp [hn] at h

/-! ### Cycles and ticks -/

/-- A run of cycles always answers a next state. -/
theorem runCycles_next (n : Nat) (s : State) : ∃ t, runCycles n s = .next t := by
  induction n generalizing s with
  | zero => exact ⟨s, rfl⟩
  | succ n ih =>
    obtain ⟨u, hu⟩ := step_next s
    rw [runCycles, hu]
    by_cases h : u.fault.isSome
    · exact ⟨u, by simp [h]⟩
    · obtain ⟨t, ht⟩ := ih u
      exact ⟨t, by simpa [h] using ht⟩

/-- What holds at the start and is kept by every step holds after a run of cycles. -/
theorem runCycles_induction {P : State → Prop} (hstep : ∀ s t, P s → step s = .next t → P t) (n : Nat) (s t : State)
    (hs : P s) (h : runCycles n s = .next t) : P t := by
  induction n generalizing s with
  | zero => cases h; exact hs
  | succ n ih =>
    obtain ⟨u, hu⟩ := step_next s
    have hPu := hstep s u hs hu
    rw [runCycles, hu] at h
    by_cases hf : u.fault.isSome
    · simp only [hf, if_true] at h
      cases h; exact hPu
    · simp only [hf, Bool.false_eq_true, if_false] at h
      exact ih u hPu h

/-- Everything a tick can do: nothing with a fault latched, the cycles alone if one of them latches a fault, else the
cycles and one timer step (R126, R271). -/
theorem advanceTick_cases (n : Nat) (s : State) :
    (s.fault.isSome ∧ advanceTick n s = .next s) ∨
    (s.fault = none ∧ ∃ t, runCycles n s = .next t ∧ t.fault.isSome ∧ advanceTick n s = .next t) ∨
    (s.fault = none ∧ ∃ t, runCycles n s = .next t ∧ t.fault = none ∧ advanceTick n s = .next (timerStep t)) := by
  cases hf : s.fault with
  | some r => left; exact ⟨rfl, by simp [advanceTick, hf]⟩
  | none =>
    right
    obtain ⟨t, ht⟩ := runCycles_next n s
    cases hft : t.fault with
    | some r => left; exact ⟨rfl, t, ht, by simp [hft], by simp [advanceTick, hf, ht, hft]⟩
    | none => right; exact ⟨rfl, t, ht, hft, by simp [advanceTick, hf, ht, hft]⟩

/-- The saturating decrement in numbers: `max(0, b - 1)` (R272). -/
theorem countDown_toNat (b : Byte) : (countDown b).toNat = b.toNat - 1 := by
  have hb := b.isLt
  unfold countDown
  split
  · subst_vars; rfl
  · rename_i h
    have : b.toNat ≠ 0 := fun e => h (BitVec.eq_of_toNat_eq (by simpa using e))
    rw [BitVec.toNat_sub]
    simp
    omega

end Sys2Proof.Machine
end

