-- ==== Sys2Proof/Tests/Slice0.lean ====
section
/-! SUPPORT. The model's own tests. Every expected value comes from the spec: the words from the encoding vectors of
95_test_vectors.md section 4 and the encodings of R96, the one-cycle results from its vectors T100 to T614, the ticks from
K4 and K6. The second half shows, for each obligation with hypotheses, a state and operands that meet them. -/

namespace Sys2Proof.Tests

open Sys2Proof.Machine

/-- The outcome is a next state with the property. -/
def nextIs (o : Host.Outcome State Fault Refusal) (p : State → Bool) : Bool :=
  match o with
  | .next t => p t
  | .fault _ => false
  | .refused _ => false

/-- One cycle with the word `w` placed at `pc` ends in exactly the start state changed by `f`. -/
def runs (w : Nat) (s : State) (f : State → State) : Bool :=
  nextIs (step (s.withFetchWord 16 w)) fun t => decide (t = f (s.withFetchWord 16 w))

/-- Bytes put into memory from an address up. -/
def bytes (s : State) (a : Nat) (bs : List Byte) : State := s.setMem (s.mem.writes a bs)

/-- A fault latched. -/
def latched (s : State) (c : Fault) (pc : Word) (info : BitVec 17) : State := { s with fault := some ⟨c, pc, info⟩ }

/-- One display row. -/
def row (s : State) (y : Fin 32) (r : Row) : State := s.setDisp (s.disp.set y.val r)

/-- The state after reset, the start of every vector. -/
abbrev r0 : State := State.reset

/-- Each word decodes to the instruction beside it, and is its encoding. -/
def decodesAll (l : List (Word × Instr)) : Bool :=
  l.all fun p => decide (decodeWord p.1 = .ok p.2) && decide (encode p.2 = p.1)

/-- Each word is unrecognized. -/
def unrecognizedAll (l : List Word) : Bool := l.all fun w => decide (decodeWord w = .error (.unrecognized w))

/-! ### Decoding (95_test_vectors.md section 4, R96) -/

theorem test_decode_control : decodesAll
    [(0x00EE, .ret), (0x0123, .sys 0x123), (0x00E1, .sys 0x0E1), (0x12A4, .jp 0x2A4), (0x2300, .call 0x300),
     (0x331F, .seImm 3 0x1F), (0x4A00, .sneImm 10 0), (0x5120, .seReg 1 2), (0x9120, .sneReg 1 2),
     (0xB210, .jpV0 0x210)] = true := by decide

theorem test_decode_alu : decodesAll
    [(0x6A2F, .ldImm 10 0x2F), (0x70FF, .addImm 0 0xFF), (0x8120, .ldReg 1 2), (0x8121, .orReg 1 2),
     (0x8122, .andReg 1 2), (0x8123, .xorReg 1 2), (0x8124, .addReg 1 2), (0x8EF5, .subReg 14 15), (0x8106, .shr 1 0),
     (0x8127, .subnReg 1 2), (0x812E, .shl 1 2), (0xC30F, .rnd 3 0x0F)] = true := by decide

theorem test_decode_memory_display_keys : decodesAll
    [(0x00E0, .cls), (0xA20C, .ldI 0x20C), (0xD125, .drw 1 2 5), (0xE09E, .skp 0), (0xEBA1, .sknp 11), (0xF107, .ldVxDT 1),
     (0xF50A, .ldVxK 5), (0xF015, .ldDTVx 0), (0xF218, .ldSTVx 2), (0xF21E, .addI 2), (0xF029, .ldF 0), (0xF033, .ldB 0),
     (0xFF55, .storeRegs 15), (0xF265, .loadRegs 2)] = true := by decide

/-- T600 to T614 and 0x8EF8. -/
theorem test_decode_unrecognized : unrecognizedAll
    [0x5121, 0x5F0F, 0x8008, 0x812F, 0x812D, 0x9001, 0xE000, 0xE09F, 0xE1A0, 0xF000, 0xF030, 0xF075, 0xF185, 0xF066,
     0xFFFF, 0x8EF8] = true := by decide

/-- `D1 25` in memory order: the table word of 0xD125 (R60). -/
theorem test_decodeTableWord : decodeTableWord 16 0xD125 = some (.drw 1 2 5) ∧ decodeTableWord 16 0x5121 = none ∧
    decodeBytes [0xD1, 0x25, 0x77] = .ok (.drw 1 2 5, [0x77]) ∧ decodeBytes [0xD1] = .error .truncated := by decide

/-! ### Well-formedness: the one check refuses its two ill-formed terms (R101) -/

theorem test_wf_refuses_sys_0E0 : (Instr.sys 0x0E0).wellFormed = false := by decide
theorem test_wf_refuses_sys_0EE : (Instr.sys 0x0EE).wellFormed = false := by decide
theorem test_wf_accepts : (Instr.sys 0x0E1).wellFormed = true ∧ Instr.cls.wellFormed = true := by decide

/-! ### Control flow -/

/-- T101 -/
theorem test_sys : runs 0x0123 r0 (·.setPc 0x202) = true := by decide
/-- T104 -/
theorem test_jp : runs 0x1ABC r0 (·.setPc 0xABC) = true := by decide
/-- T110 -/
theorem test_call_level_128 : runs 0x2300 ((r0.setPc 0x204).setSp 3586)
    (fun t => ((bytes t 3584 [0x02, 0x06]).setSp 3584).setPc 0x300) = true := by decide
/-- T111 -/
theorem test_call_overflow : runs 0x2300 ((r0.setPc 0x204).setSp 3584) (latched · .stackOverflow 0x204 3584) = true := by
  decide
/-- T112 -/
theorem test_ret : runs 0x00EE (bytes (r0.setSp 3838) 3838 [0x02, 0x06]) (fun t => (t.setPc 0x206).setSp 3840) = true := by
  decide
/-- T113 -/
theorem test_ret_underflow : runs 0x00EE r0 (latched · .stackUnderflow 0x200 3840) = true := by decide
/-- T116 -/
theorem test_jpV0_above_4095 : runs 0xBFFF (r0.setV 0 0xFF) (·.setPc 0x10FE) = true := by decide
/-- T118 -/
theorem test_jpV0_not_VX : runs 0xB2FF (r0.setV 2 0x55) (·.setPc 0x2FF) = true := by decide
/-- T120 -/
theorem test_seImm_no : runs 0x3005 (r0.setV 0 4) (·.setPc 0x202) = true := by decide
/-- T129: a skip at the last word of memory. -/
theorem test_seImm_yes_at_end : runs 0x3000 (r0.setPc 0xFFE) (·.setPc 0x1002) = true := by decide
/-- T121 -/
theorem test_sneImm_no : runs 0x4005 (r0.setV 0 5) (·.setPc 0x202) = true := by decide
/-- T122 -/
theorem test_sneImm_yes : runs 0x4005 (r0.setV 0 4) (·.setPc 0x204) = true := by decide
/-- T123 -/
theorem test_seReg_yes : runs 0x5120 ((r0.setV 1 7).setV 2 7) (·.setPc 0x204) = true := by decide
/-- T124 -/
theorem test_seReg_no : runs 0x5120 ((r0.setV 1 7).setV 2 8) (·.setPc 0x202) = true := by decide
/-- T126 -/
theorem test_sneReg_yes : runs 0x9120 ((r0.setV 1 7).setV 2 8) (·.setPc 0x204) = true := by decide
/-- T127 -/
theorem test_sneReg_no : runs 0x9120 ((r0.setV 1 7).setV 2 7) (·.setPc 0x202) = true := by decide
/-- T108, T117 -/
theorem test_fetch_outside :
    nextIs (step (r0.setPc 0xFFF)) (fun t => decide (t = latched (r0.setPc 0xFFF) .fetchOutOfBounds 0xFFF 4095)) = true ∧
    nextIs (step (r0.setPc 0x10FE))
      (fun t => decide (t = latched (r0.setPc 0x10FE) .fetchOutOfBounds 0x10FE 4350)) = true := by decide
/-- T600, with its event. -/
theorem test_unrecognized : runs 0x5121 ((r0.setI 0x123).setV 15 1) (·.setPc 0x202) = true ∧
    diagnostic? (r0.withFetchWord 16 0x5121) = some ⟨0x200, 0x5121⟩ := by decide

/-! ### Registers, arithmetic and logic -/

/-- T201 -/
theorem test_ldImm : runs 0x6F07 r0 (fun t => (t.setV 15 7).setPc 0x202) = true := by decide
/-- T202 -/
theorem test_addImm_wraps : runs 0x7001 ((r0.setV 0 0xFF).setV 15 1) (fun t => (t.setV 0 0).setPc 0x202) = true := by decide
/-- T205 -/
theorem test_ldReg : runs 0x8120 (r0.setV 2 9) (fun t => (t.setV 1 9).setPc 0x202) = true := by decide
/-- T206 -/
theorem test_orReg : runs 0x8121 (((r0.setV 1 0x0C).setV 2 0x0A).setV 15 1)
    (fun t => (t.setV 1 0x0E).setPc 0x202) = true := by decide
/-- T207 -/
theorem test_andReg : runs 0x8122 (((r0.setV 1 0x0C).setV 2 0x0A).setV 15 1)
    (fun t => (t.setV 1 0x08).setPc 0x202) = true := by decide
/-- T208 -/
theorem test_xorReg : runs 0x8123 (((r0.setV 1 0x0C).setV 2 0x0A).setV 15 1)
    (fun t => (t.setV 1 0x06).setPc 0x202) = true := by decide
/-- T210 -/
theorem test_addReg_carry : runs 0x8124 ((r0.setV 1 0xFF).setV 2 1)
    (fun t => ((t.setV 1 0).setV 15 1).setPc 0x202) = true := by decide
/-- T215 -/
theorem test_addReg_flag_wins : runs 0x8F14 ((r0.setV 1 1).setV 15 5) (fun t => (t.setV 15 0).setPc 0x202) = true := by
  decide
/-- T218 -/
theorem test_subReg_borrow : runs 0x8125 ((r0.setV 1 1).setV 2 2)
    (fun t => ((t.setV 1 0xFF).setV 15 0).setPc 0x202) = true := by decide
/-- T221 -/
theorem test_subReg_flag_wins : runs 0x8F15 ((r0.setV 1 3).setV 15 5) (fun t => (t.setV 15 1).setPc 0x202) = true := by
  decide
/-- T226 -/
theorem test_shr_ignores_Y : runs 0x8126 (((r0.setV 1 4).setV 2 0xFF).setV 15 1)
    (fun t => ((t.setV 1 2).setV 15 0).setPc 0x202) = true := by decide
/-- T228 -/
theorem test_shr_of_flag : runs 0x8F06 (r0.setV 15 3) (fun t => (t.setV 15 0).setPc 0x202) = true := by decide
/-- T230 -/
theorem test_subnReg : runs 0x8127 ((r0.setV 1 3).setV 2 0x0A)
    (fun t => ((t.setV 1 7).setV 15 1).setPc 0x202) = true := by decide
/-- T232 -/
theorem test_subnReg_equal : runs 0x8127 ((r0.setV 1 4).setV 2 4)
    (fun t => ((t.setV 1 0).setV 15 1).setPc 0x202) = true := by decide
/-- T234 -/
theorem test_shl : runs 0x810E (r0.setV 1 0xC1) (fun t => ((t.setV 1 0x82).setV 15 1).setPc 0x202) = true := by decide
/-- T237 -/
theorem test_shl_of_flag : runs 0x8F0E (r0.setV 15 0x80) (fun t => (t.setV 15 2).setPc 0x202) = true := by decide
/-- T240: the byte drawn is 0xA7. -/
theorem test_rnd : (rndBody 3 0x0F 0xA7 r0).getV 3 = 0x07 := by decide

/-! ### Index register and memory -/

/-- T301 -/
theorem test_ldI : runs 0xAFFF (r0.setI 0x1234) (fun t => (t.setI 0xFFF).setPc 0x202) = true := by decide
/-- T303 -/
theorem test_addI_wraps : runs 0xF21E (((r0.setI 0xFFFF).setV 2 1).setV 15 1) (fun t => (t.setI 0).setPc 0x202) = true := by
  decide
/-- T304 -/
theorem test_addI_past_4095 : runs 0xF21E ((r0.setI 0xFFF).setV 2 1) (fun t => (t.setI 0x1000).setPc 0x202) = true := by
  decide
/-- T306 -/
theorem test_ldF : runs 0xF029 (r0.setV 0 0x1A) (fun t => (t.setI 0x032).setPc 0x202) = true := by decide
/-- T312 -/
theorem test_ldB : runs 0xF033 ((r0.setI 0xFFD).setV 0 0x7B) (fun t => (bytes t 4093 [1, 2, 3]).setPc 0x202) = true := by
  decide
/-- T315 -/
theorem test_ldB_outside : runs 0xF033 ((r0.setI 0xFFFF).setV 0 0x7B) (latched · .dataOutOfBounds 0x200 65535) = true := by
  decide
/-- T316 -/
theorem test_storeRegs : runs 0xF155 (((((r0.setI 0x208).setV 0 0x62)).setV 1 0x2A).setV 2 0x77)
    (fun t => (bytes t 520 [0x62, 0x2A]).setPc 0x202) = true := by decide
/-- T318 -/
theorem test_storeRegs_outside : runs 0xF155 (((r0.setI 0xFFF).setV 0 0xAB).setV 1 0xCD)
    (latched · .dataOutOfBounds 0x200 4096) = true := by decide
/-- T322 -/
theorem test_loadRegs : runs 0xF265 (bytes ((r0.setI 0x300).setV 3 0x99) 768 [2, 5, 4, 8])
    (fun t => (((t.setV 0 2).setV 1 5).setV 2 4).setPc 0x202) = true := by decide
/-- T326: the font is what `FX65` reads at 0. -/
theorem test_loadRegs_font : runs 0xF465 r0
    (fun t => (((((t.setV 0 0xF0).setV 1 0x90).setV 2 0x90).setV 3 0x90).setV 4 0xF0).setPc 0x202) = true := by decide

/-! ### Display -/

/-- T400 -/
theorem test_cls : runs 0x00E0 (row (row (r0.setV 15 1) 0 0xFFFFFFFFFFFFFFFF) 31 1)
    (fun t => (row (row t 0 0) 31 0).setPc 0x202) = true := by decide
/-- T401: clipped right and below. -/
theorem test_drw_clips : runs 0xD012 (bytes (((r0.setI 0x300).setV 0 62).setV 1 31) 768 [0xFF, 0xFF])
    (fun t => (row t 31 3).setPc 0x202) = true := by decide
/-- T404: a collision. -/
theorem test_drw_collides : runs 0xD011 (row (bytes (r0.setI 0x300) 768 [0xFF]) 0 0xF000000000000000)
    (fun t => ((row t 0 0x0F00000000000000).setV 15 1).setPc 0x202) = true := by decide

/-! ### Keys and timers -/

/-- T502 -/
theorem test_skp_key_15 : runs 0xE09E ((r0.setKeys 0x8000).setV 0 15) (·.setPc 0x204) = true := by decide
/-- T503 -/
theorem test_skp_outside : runs 0xE09E ((r0.setKeys 0xFFFF).setV 0 16) (latched · .keyIndexOutOfRange 0x200 16) = true := by
  decide
/-- T504 -/
theorem test_sknp_down : runs 0xE0A1 ((r0.setKeys 0x0008).setV 0 3) (·.setPc 0x202) = true := by decide
/-- T505 -/
theorem test_sknp_up : runs 0xE0A1 (r0.setV 0 3) (·.setPc 0x204) = true := by decide
/-- T507 -/
theorem test_ldVxK_waits : runs 0xF50A r0 (fun t => t) = true := by decide
/-- T509 -/
theorem test_ldVxK_lowest : runs 0xF50A ((r0.setKeys 0x0028).setV 5 0xEE) (fun t => (t.setV 5 3).setPc 0x202) = true := by
  decide
/-- T511 -/
theorem test_ldVxDT : runs 0xF107 (r0.setDT 44) (fun t => (t.setV 1 0x2C).setPc 0x202) = true := by decide
/-- T512 -/
theorem test_ldDTVx : runs 0xF015 (r0.setV 0 3) (fun t => (t.setDT 3).setPc 0x202) = true := by decide
/-- T514 -/
theorem test_ldSTVx : runs 0xF218 (r0.setV 2 0x1E) (fun t => (t.setST 30).setPc 0x202) = true := by decide

/-! ### Ticks -/

/-- K4, its first tick: the third cycle faults, the rest and the timer step are skipped. -/
theorem test_tick_fault : nextIs (advanceTick 5 (bytes r0 512 [0x60, 0x03, 0xF0, 0x15, 0x00, 0xEE, 0x12, 0x06]))
    (fun t => t.pc == 0x204 && t.DT == 3 && decide (t.fault = some ⟨.stackUnderflow, 0x204, 3840⟩)) = true := by decide
/-- K6, its fourth tick with three cycles: the wait ends, then the self-jump runs. -/
theorem test_tick_key : nextIs (advanceTick 3 (bytes (setPressedKeys 0x0100 r0) 512 [0xF3, 0x0A, 0x12, 0x02]))
    (fun t => t.pc == 0x202 && t.getV 3 == 8) = true := by decide
/-- K1: a tick of no cycles counts down once, floor 0. -/
theorem test_tick_empty : nextIs (advanceTick 0 (r0.setDT 5)) (fun t => t.DT == 4 && t.ST == 0 && t.pc == 0x200) = true := by
  decide

/-! ### Witnesses: for each obligation with hypotheses, a concrete state and operands that meet them all, clause by clause
and at the boundaries of their ranges. `answers` says that the outcome is the next state given. -/

/-- The outcome is the next state `t`. -/
abbrev answers (o : Host.Outcome State Fault Refusal) (t : State) : Prop := o = .next t

/-- The two words of memory at `pc` are the given bytes. -/
abbrev word (s : State) (w : Word) : State := bytes s s.pc.toNat (bytesOfWord w)

theorem witness_DecodeEncodeRoundTrip : (Instr.sys 0x0E1).wellFormed = true ∧ (Instr.drw 15 0 15).wellFormed = true := by
  decide

theorem witness_EncodeOfDecodedWord :
    decodeWord 0x00EE = .ok .ret ∧ decodeWord 0x00ED = .ok (.sys 0x0ED) ∧ decodeWord 0xFF65 = .ok (.loadRegs 15) := by decide

theorem witness_DecodeIsOpcodeMap :
    (decodeWord 0x00E1 = .ok (.sys 0x0E1) ∧ (0x00E1 : Word) &&& 0xF000 = 0x0000 ∧ Instr.operandsAre 0x00E1 (.sys 0x0E1)) ∧
      ∀ i, decodeWord 0x5121 ≠ .ok i := by
  refine ⟨⟨by decide, by decide, by show nnnOf 0x00E1 = _; decide⟩, fun i h => ?_⟩
  have e : decodeWord 0x5121 = .error (.unrecognized 0x5121) := by decide
  rw [e] at h
  cases h

theorem witness_StepRunsDecodedInstruction :
    let s := word (r0.setPc 4094) 0x8EF5
    s.fault = none ∧ s.pc.toNat ≤ 4094 ∧
      (0x8EF5 : Word).toNat = (s.byteAt s.pc.toNat).toNat * 256 + (s.byteAt (s.pc.toNat + 1)).toNat ∧
      decodeWord 0x8EF5 = .ok (.subReg 14 15) := by decide

theorem witness_StepRunsPlacedInstruction : decodeTableWord 16 0xFF55 = some (.storeRegs 15) := by decide

theorem witness_UnrecognizedWordOnlyAdvances :
    let s := word (r0.setPc 4094) 0x5121
    s.fault = none ∧ s.pc.toNat ≤ 4094 ∧
      (0x5121 : Word) = wordOfBytes (s.byteAt s.pc.toNat) (s.byteAt (s.pc.toNat + 1)) ∧
      decodeWord 0x5121 = .error (.unrecognized 0x5121) ∧ diagnostic? s = some ⟨4094, 0x5121⟩ := by decide

theorem witness_SysIsNoOperation :
    r0.pc.toNat ≤ 4094 ∧
      decodeWord (wordOfBytes (r0.byteAt r0.pc.toNat) (r0.byteAt (r0.pc.toNat + 1))) = .ok (.sys 0x000) := by decide

theorem witness_FetchOutsideMemoryFaults :
    (r0.setPc 4095).fault = none ∧ 4094 < (r0.setPc 4095).pc.toNat ∧ 4094 < (r0.setPc 0xFFFF).pc.toNat := by decide

theorem witness_FaultedMachineStandsStill :
    (latched r0 .stackUnderflow 0x200 3840).fault ≠ none ∧
      answers (hostStep (.construct [] 0) (latched r0 .stackUnderflow 0x200 3840)) r0 := ⟨by decide, rfl⟩

/-- One for each line of the conclusion. -/
theorem witness_FaultCausesAndDetails :
    r0.fault = none ∧ r0.stackOk ∧ answers (exec .ret r0) (latched r0 .stackUnderflow 0x200 3840) ∧
    (r0.setSp 3584).stackOk ∧
    answers (exec (.call 0) (r0.setSp 3584)) (latched (r0.setSp 3584) .stackOverflow 0x200 3584) ∧
    answers (exec (.sknp 0) (r0.setV 0 16)) (latched (r0.setV 0 16) .keyIndexOutOfRange 0x200 16) ∧
    answers (exec (.ldB 0) (r0.setI 4094)) (latched (r0.setI 4094) .dataOutOfBounds 0x200 4096) ∧
    answers (exec (.loadRegs 15) (r0.setI 4081)) (latched (r0.setI 4081) .dataOutOfBounds 0x200 4096) ∧
    answers (exec (.drw 0 0 15) (r0.setI 4082)) (latched (r0.setI 4082) .dataOutOfBounds 0x200 4096) :=
  ⟨rfl, by decide, rfl, by decide, rfl, rfl, rfl, rfl, rfl⟩

theorem witness_CallPushesAndJumps :
    (3584 < (r0.setSp 3586).sp.toNat ∧ (r0.setSp 3586).sp.toNat ≤ 4096) ∧
    (3584 < (r0.setSp 3840).sp.toNat ∧ (r0.setSp 3840).sp.toNat ≤ 4096) ∧
    (3584 < (r0.setSp 4096).sp.toNat ∧ (r0.setSp 4096).sp.toNat ≤ 4096) := by decide

theorem witness_ReturnPopsPc : (r0.setSp 3838).sp.toNat < 3840 ∧ (r0.setSp 3584).sp.toNat < 3840 := by decide

theorem witness_StackBoundFaults :
    (r0.setSp 3584).sp.toNat ≤ 3584 ∧ 3840 ≤ (r0.setSp 3840).sp.toNat ∧ 4096 < (r0.setSp 4097).sp.toNat := by decide

/-- A call at depth 0, and a state elsewhere with its `sp` and slot. -/
theorem witness_ReturnUndoesCall :
    let t := ((bytes r0 3838 [0x02, 0x02]).setSp 3838).setPc 0x300
    let u := (t.setPc 0x400).setV 1 9
    r0.stackOk ∧ 3584 < r0.sp.toNat ∧ answers (exec (.call 0x300) r0) t ∧ u.sp = t.sp ∧
      u.byteAt u.sp.toNat = t.byteAt u.sp.toNat ∧ u.byteAt (u.sp.toNat + 1) = t.byteAt (u.sp.toNat + 1) :=
  ⟨by decide, by decide, rfl, rfl, rfl, rfl⟩

theorem witness_DecimalDigitsStored : (r0.setI 4093).I.toNat + 2 ≤ 4095 := by decide

theorem witness_RegistersStored :
    (r0.setI 4080).I.toNat + (15 : Reg).val ≤ 4095 ∧ (r0.setI 4095).I.toNat + (0 : Reg).val ≤ 4095 := by decide

theorem witness_RegistersLoaded :
    (r0.setI 4080).I.toNat + (15 : Reg).val ≤ 4095 ∧ (r0.setI 4095).I.toNat + (0 : Reg).val ≤ 4095 := by decide

theorem witness_FootprintFaults :
    latched (r0.setI 4094) .dataOutOfBounds 0x200 4096 =
      { r0.setI 4094 with fault := some ⟨.dataOutOfBounds, (r0.setI 4094).pc,
        BitVec.ofNat 17 (max (r0.setI 4094).I.toNat 4096)⟩ } ∧
    4095 < (r0.setI 4094).I.toNat + 2 ∧ 4095 < (r0.setI 4094).I.toNat + (2 : Reg).val ∧
    (0 < (3 : Nibble).toNat ∧ 4095 < (r0.setI 4094).I.toNat + (3 : Nibble).toNat - 1) := by decide

/-- T316 of the spec: `FX55` stores the next instruction. -/
theorem witness_StoredBytesAreFetched :
    let s := ((r0.setI 0x202).setV 0 0x62).setV 1 0x2A
    1 ≤ (1 : Reg).val ∧ s.I.toNat + (1 : Reg).val ≤ 4095 ∧ s.I = s.pc + 2 ∧
      answers (exec (.storeRegs 1) s) ((bytes s 0x202 [0x62, 0x2A]).setPc 0x202) :=
  ⟨by decide, by decide, by decide, rfl⟩

/-- Both sides of the footprint, and both sides of the collision: pixel (0, 0) lit or not, with a sprite bit on it. -/
theorem witness_DrawSpritePixels :
    ((0 : Nibble).toNat = 0 ∨ (r0.setI 0xFFFF).I.toNat + (0 : Nibble).toNat - 1 ≤ 4095) ∧
    ((15 : Nibble).toNat = 0 ∨ (r0.setI 4081).I.toNat + (15 : Nibble).toNat - 1 ≤ 4095) ∧
    ((row r0 0 0x8000000000000000).pixel 0 0 = true ∧ (r0.byteAt (r0.I.toNat + 0)).getLsbD (7 - 0) = true) ∧
    r0.pixel 0 0 = false := by decide

/-- The first draw of the glyph of 0, and the same machine after it. -/
theorem witness_DrawTwiceRestores :
    let t := ((((row (row (row r0 0 0xF000000000000000) 1 0x9000000000000000) 2 0x9000000000000000).setV 15 0).setPc 0x202))
    ((3 : Nibble).toNat = 0 ∨ r0.I.toNat + (3 : Nibble).toNat - 1 ≤ 4095) ∧
      answers (exec (.drw 0 1 3) r0) t ∧ t.getV 0 = r0.getV 0 ∧ t.getV 1 = r0.getV 1 ∧ t.I = r0.I ∧
      (r0.pixel 0 0 = false ∧ t.pixel 0 0 = true) := ⟨by decide, rfl, by decide, by decide, rfl, by decide⟩

/-- All visible bits of the sprite meet lit pixels: the case in which the statement fails. -/
theorem witness_SecondDrawAlwaysCollides :
    let s := row r0 0 0xF000000000000000
    let t := (row (s.setV 15 1) 0 0).setPc 0x202
    answers (exec (.drw 0 1 1) s) t ∧ t.fault = s.fault ∧ t.getV 0 = s.getV 0 ∧ t.getV 1 = s.getV 1 ∧ t.I = s.I ∧
      t.mem = s.mem ∧ t.disp ≠ s.disp ∧
      answers (exec (.drw 0 1 1) t) (((row t 0 0xF000000000000000).setV 15 0).setPc 0x204) :=
  ⟨rfl, rfl, by decide, by decide, rfl, rfl, by decide, rfl⟩

theorem witness_KeySkips : ((r0.setV 0 15).getV 0).toNat ≤ 15 ∧ (r0.getV 0).toNat ≤ 15 := by decide

theorem witness_KeyNumberAboveFifteenFaults :
    15 < ((r0.setV 0 16).getV 0).toNat ∧ 15 < ((r0.setV 15 255).getV 15).toNat := by decide

theorem witness_WaitForKey : r0.keys = 0 ∧ (r0.setKeys 0x8000).keys ≠ 0 := by decide

theorem witness_KeyWaitSpansTicks :
    let s := word (r0.setPc 4094) 0xF30A
    s.fault = none ∧ s.keys = 0 ∧ s.pc.toNat ≤ 4094 ∧
      decodeWord (wordOfBytes (s.byteAt s.pc.toNat) (s.byteAt (s.pc.toNat + 1))) = .ok (.ldVxK 3) := by decide

theorem witness_TickCountsDownOnce :
    r0.fault = none ∧ answers (runCycles 2 r0) (r0.setPc 0x204) ∧ (r0.setPc 0x204).fault = none := ⟨rfl, rfl, rfl⟩

theorem witness_FaultEndsTick :
    (1 ≤ 5) ∧ answers (runCycles 1 (r0.setPc 4095)) (latched (r0.setPc 4095) .fetchOutOfBounds 4095 4095) ∧
      (latched (r0.setPc 4095) .fetchOutOfBounds 4095 4095).fault ≠ none := ⟨by decide, rfl, by decide⟩

/-- A machine that spins on a jump to itself at 0x200, whatever its timers hold. -/
def spinning (s : State) : Prop := ∃ d e : Byte, s = ((word r0 0x1200).setDT d).setST e

theorem spinning_step (d e : Byte) :
    answers (step (((word r0 0x1200).setDT d).setST e)) (((word r0 0x1200).setDT d).setST e) := by
  have hf : fetch (((word r0 0x1200).setDT d).setST e) = .ok 0x1200 :=
    show fetch (word r0 0x1200) = .ok 0x1200 by decide
  have hd : decodeWord 0x1200 = .ok (.jp 0x200) := by decide
  simp only [answers, step, State.setST_fault, State.setDT_fault]
  rw [show (word r0 0x1200).fault = none from rfl]
  simp only [hf, hd]
  rfl

theorem witness_DelayTimerAfterTicks :
    spinning (((word r0 0x1200).setDT 5).setST 0) ∧ (((word r0 0x1200).setDT 5).setST 0).fault = none ∧
    (∀ u v, spinning u → step u = .next v → spinning v ∧ v.fault = none ∧ v.DT = u.DT) ∧
    (∀ u, spinning u → spinning (timerStep u)) := by
  refine ⟨⟨5, 0, rfl⟩, rfl, ?_, ?_⟩
  · rintro u v ⟨d, e, rfl⟩ h
    rw [spinning_step d e] at h
    cases h
    exact ⟨⟨d, e, rfl⟩, rfl, rfl⟩
  · rintro u ⟨d, e, rfl⟩
    exact ⟨countDown d, countDown e, rfl⟩

/-- The longest image that is accepted and the shortest that is not (K9). -/
theorem witness_ResetState :
    (List.replicate 3584 (0x12 : Byte)).length ≤ 3584 ∧ 3584 < (List.replicate 3585 (0x12 : Byte)).length ∧
      answers (construct [0x12] 0) (bytes r0 512 [0x12]) ∧
      answers (construct [0x12] 7) { bytes r0 512 [0x12] with source := ⟨7, 0⟩ } := by
  refine ⟨?_, ?_, rfl, rfl⟩ <;> simp only [List.length_replicate] <;> decide

/-- The state after one call from reset meets the invariant, and a step leads on from it. -/
def afterCall : State := ((bytes r0 3838 [0x02, 0x02]).setSp 3838).setPc 0x300

theorem afterCall_inv : afterCall.Inv where
  memory := by decide
  stack := by decide
  latch := by intro r h; cases h

theorem witness_StepKeepsInvariant : afterCall.Inv ∧ answers (step afterCall) (afterCall.setPc 0x302) :=
  ⟨afterCall_inv, rfl⟩

theorem witness_HostOperationsKeepInvariant :
    afterCall.Inv ∧ answers (hostStep (.advanceTick 1) afterCall) (timerStep (afterCall.setPc 0x302)) ∧
      answers (hostStep (.setPressedKeys 3) afterCall) (afterCall.setKeys 3) := ⟨afterCall_inv, rfl, rfl⟩

theorem witness_ResetMeetsInvariant : answers (construct [0x12, 0x00] 0) (bytes r0 512 [0x12, 0x00]) := rfl

/-- A reset with a call of 0x300, the cycle, and one timer step. -/
theorem witness_ReachableStatesMeetInvariant : Reachable (timerStep (bytes afterCall 512 [0x23, 0x00])) :=
  .timer _ (.cycle _ _ (.reset [0x23, 0x00] 0 _ rfl) rfl) rfl

theorem witness_FlagRegisterWriters :
    answers (exec (.addReg 0 0) (r0.setV 0 0x80)) (((r0.setV 0 0).setV 15 1).setPc 0x202) ∧
      (((r0.setV 0 0).setV 15 1).setPc 0x202).getV 15 ≠ (r0.setV 0 0x80).getV 15 := ⟨rfl, by decide⟩

/-- One instruction for each clause: `sp` and memory, `I`, `DT`, `ST`, the display, the random source, memory, `pc`. -/
theorem witness_StateWriters :
    answers (exec (.call 0x300) r0) afterCall ∧ afterCall.sp ≠ r0.sp ∧ afterCall.byteAt 3838 ≠ r0.byteAt 3838 ∧
    (answers (exec (.ldI 1) r0) ((r0.setI 1).setPc 0x202) ∧ (r0.setI 1).I ≠ r0.I) ∧
    (answers (exec (.ldDTVx 0) (r0.setV 0 1)) (((r0.setV 0 1).setDT 1).setPc 0x202) ∧ (r0.setDT 1).DT ≠ r0.DT) ∧
    (answers (exec (.ldSTVx 0) (r0.setV 0 1)) (((r0.setV 0 1).setST 1).setPc 0x202) ∧ (r0.setST 1).ST ≠ r0.ST) ∧
    (answers (exec .cls (row r0 0 1)) (r0.setPc 0x202) ∧ r0.disp ≠ (row r0 0 1).disp) ∧
    (answers (exec (.rnd 0 0xFF) r0) (rndBody 0 0xFF r0.nextRandom (r0.setPc 0x202)) ∧
      (rndBody 0 0xFF r0.nextRandom (r0.setPc 0x202)).source ≠ r0.source) ∧
    (answers (exec (.storeRegs 0) ((r0.setI 0x300).setV 0 7)) ((bytes ((r0.setI 0x300).setV 0 7) 0x300 [7]).setPc 0x202) ∧
      (bytes r0 0x300 [7]).byteAt 0x300 ≠ r0.byteAt 0x300) ∧
    (answers (exec (.ldVxK 0) r0) r0 ∧ r0.pc ≠ r0.pc + 2) ∧
    (answers (exec .ret r0) (latched r0 .stackUnderflow 0x200 3840) ∧ r0.pc ≠ r0.pc + 2) :=
  ⟨rfl, by decide, by decide, ⟨rfl, by decide⟩, ⟨rfl, by decide⟩, ⟨rfl, by decide⟩, ⟨rfl, by decide⟩,
    ⟨rfl, by decide⟩, ⟨rfl, by decide⟩, ⟨rfl, by decide⟩, rfl, by decide⟩

/-- `SYS` reads none of the four; `FX15` and `FX18` overwrite their timer. -/
theorem witness_UnreadStateDoesNotMatter :
    answers (exec (.sys 0) r0) (r0.setPc 0x202) ∧
    (∀ x, Instr.sys 0 ≠ .skp x ∧ Instr.sys 0 ≠ .sknp x ∧ Instr.sys 0 ≠ .ldVxK x) ∧
    (∀ x, Instr.sys 0 ≠ .ldVxDT x ∧ Instr.sys 0 ≠ .ldDTVx x) ∧ (∀ x, Instr.sys 0 ≠ .ldSTVx x) ∧
    (∀ x nn, Instr.sys 0 ≠ .rnd x nn) ∧
    answers (exec (.ldDTVx 0) r0) (r0.setPc 0x202) ∧ answers (exec (.ldSTVx 0) r0) (r0.setPc 0x202) := by
  refine ⟨rfl, ?_, ?_, ?_, ?_, rfl, rfl⟩ <;> intros <;> simp

/-- A step that draws, with the source itself as the one that has its next byte, and a step that does not draw. -/
theorem witness_RandomSourceSeenThroughItsByte :
    let s := word r0 0xC0FF
    answers (step s) (rndBody 0 0xFF s.nextRandom (s.setPc 0x202)) ∧
      ({ s with source := s.source } : State).nextRandom = s.nextRandom ∧
      answers (step (word r0 0x6007)) (((word r0 0x6007).setV 0 7).setPc 0x202) := ⟨rfl, rfl, rfl⟩

end Sys2Proof.Tests
end

section
/-! SUPPORT. The decoder against the opcode map (30_encoding.md R94, R96): the fixed bits of a row are the major opcode and,
in the formats that have one, the minor opcode, and the decoder reads exactly these fields. -/

namespace Sys2Proof

variable {w v : Word} {i : Instr}

/-! ### A word is assembled from its fields (R91, R92) -/

theorem formatXNN_fields (w : Word) : formatXNN (majorOf w) (xOf w) (nnOf w) = w := by
  apply BitVec.eq_of_toNat_eq
  rw [formatXNN_toNat, majorOf_toNat, xOf_val, nnOf_toNat]; omega

theorem formatXYN_fields (w : Word) : formatXYN (majorOf w) (xOf w) (yOf w) (nOf w) = w := by
  apply BitVec.eq_of_toNat_eq
  rw [formatXYN_toNat, majorOf_toNat, xOf_val, yOf_val, nOf_toNat]; omega

/-! ### What the bits under a mask of R96 fix. The fields of the fixed value stand as extracted bits, so `simp` evaluates
them for a row of the map. -/

theorem and_F000 (w : Word) : w &&& 0xF000#16 = formatNNN (majorOf w) 0 := by
  conv_lhs => rw [← formatXYN_fields w]
  exact fixed_formatXYN_major _ _ _ _

theorem and_F00F (w : Word) : w &&& 0xF00F#16 = formatXYN (majorOf w) 0 0 (nOf w) := by
  conv_lhs => rw [← formatXYN_fields w]
  exact fixed_formatXYN _ _ _ _

theorem and_F0FF (w : Word) : w &&& 0xF0FF#16 = formatXNN (majorOf w) 0 (nnOf w) := by
  conv_lhs => rw [← formatXNN_fields w]
  exact fixed_formatXNN _ _ _

/-- The mask of the formats without a minor opcode fixes the major opcode. -/
theorem and_F000_eq_iff (hv : v &&& 0xF000#16 = v) : w &&& 0xF000#16 = v ↔ majorOf w = v.extractLsb' 12 4 := by
  change _ ↔ majorOf w = majorOf v
  rw [and_F000] at hv ⊢
  constructor
  · rintro rfl; exact (majorOf_formatNNN _ _).symm
  · intro hm; rw [hm, hv]

/-- The mask of format `XY` fixes the major opcode and the low nibble. -/
theorem and_F00F_eq_iff (hv : v &&& 0xF00F#16 = v) :
    w &&& 0xF00F#16 = v ↔ majorOf w = v.extractLsb' 12 4 ∧ nOf w = v.extractLsb' 0 4 := by
  change _ ↔ majorOf w = majorOf v ∧ nOf w = nOf v
  rw [and_F00F] at hv ⊢
  constructor
  · rintro rfl; exact ⟨(majorOf_formatXYN _ _ _ _).symm, (nOf_formatXYN _ _ _ _).symm⟩
  · rintro ⟨hm, hn⟩; rw [hm, hn, hv]

/-- The mask of format `X` fixes the major opcode and the low byte. -/
theorem and_F0FF_eq_iff (hv : v &&& 0xF0FF#16 = v) :
    w &&& 0xF0FF#16 = v ↔ majorOf w = v.extractLsb' 12 4 ∧ nnOf w = v.extractLsb' 0 8 := by
  change _ ↔ majorOf w = majorOf v ∧ nnOf w = nnOf v
  rw [and_F0FF] at hv ⊢
  constructor
  · rintro rfl; exact ⟨(majorOf_formatXNN _ _ _).symm, (nnOf_formatXNN _ _ _).symm⟩
  · rintro ⟨hm, hn⟩; rw [hm, hn, hv]

/-! ### The rows of the opcode map -/

/-- The word stands in the row of the instruction and carries its operands: the fixed bits of R96, the two words carved out
of `0NNN` (R94), the fields of R91. -/
def Instr.IsRowOf (w : Word) (i : Instr) : Prop :=
  w &&& i.encMask = i.encMatch ∧ (i.encMatch = 0x0000 → w ≠ 0x00E0 ∧ w ≠ 0x00EE) ∧ i.operandsAre w

/-- The two words carved out of `0NNN` have the major opcode 0. -/
theorem ne_carved_of_major_ne (h : majorOf w ≠ 0x0) : w ≠ 0x00E0#16 ∧ w ≠ 0x00EE#16 := by
  constructor <;> rintro rfl <;> exact h (by decide)

/-- A word in the row of an instruction is read as that instruction. The carved-out words are rows of their own, `0NNN` is
read once they are excluded, and every other row has a major opcode that excludes them. -/
theorem instrOfWord_of_isRowOf (h : i.IsRowOf w) : instrOfWord w = some i := by
  obtain ⟨hbits, hcarve, hops⟩ := h
  cases i with
  | cls | ret =>
    obtain rfl : w = _ := BitVec.and_allOnes.symm.trans hbits
    rfl
  | sys nnn =>
    have hne : w ≠ 0x00E0#16 ∧ w ≠ 0x00EE#16 := hcarve rfl
    have hm : majorOf w = 0x0#4 := (and_F000_eq_iff (v := 0) rfl).1 hbits
    obtain rfl := hops
    simp [instrOfWord, hne, hm]
  | _ =>
    simp (disch := decide) only [Instr.encMask, Instr.encMatch, Instr.operandsAre, BitVec.ofNat_eq_ofNat,
      and_F000_eq_iff, and_F00F_eq_iff, and_F0FF_eq_iff] at hbits hops
    have hne := ne_carved_of_major_ne (w := w) (by simp [hbits])
    simp [instrOfWord, decodeAlu, decodeKey, decodeMisc, hne, hbits, hops]

/-- A word that is read as an instruction stands in its row: along the lines of R94, where `8XY?`, `EX??` and `FX??` split
by their minor opcode; a line that reads `none` has no instruction. -/
theorem isRowOf_of_instrOfWord (h : instrOfWord w = some i) : i.IsRowOf w := by
  revert h
  fun_cases instrOfWord w
  case case3 h0 h1 hm => -- `0NNN`
    rintro ⟨⟩
    exact ⟨(and_F000_eq_iff (v := 0) rfl).2 hm, fun _ => ⟨h0, h1⟩, rfl⟩
  case' case12 => fun_cases decodeAlu (xOf w) (yOf w) (nOf w)
  case' case19 => fun_cases decodeKey (xOf w) (nnOf w)
  case' case20 =>
    have hm : majorOf w = 0xF := by bv_omega
    fun_cases decodeMisc (xOf w) (nnOf w)
  all_goals
    rintro ⟨⟩ <;>
    simp [Instr.IsRowOf, Instr.encMask, Instr.encMatch, Instr.operandsAre, and_F000_eq_iff, and_F00F_eq_iff,
      and_F0FF_eq_iff, *]

theorem instrOfWord_eq_some_iff : instrOfWord w = some i ↔ i.IsRowOf w :=
  ⟨isRowOf_of_instrOfWord, instrOfWord_of_isRowOf⟩

/-! ### The decoder -/

theorem decodeWord_eq_ok_iff : decodeWord w = .ok i ↔ instrOfWord w = some i := by
  unfold decodeWord
  cases instrOfWord w <;> simp

theorem decodeWord_of_none (h : instrOfWord w = none) : decodeWord w = .error (.unrecognized w) := by
  simp [decodeWord, h]

/-- Settles O3: the decoder accepts exactly the rows of the opcode map (`instrOfWord_eq_some_iff`) and rejects the rest by
name. -/
theorem decodeIsOpcodeMap : Obligations.DecodeIsOpcodeMap := by
  intro w
  refine ⟨fun i => decodeWord_eq_ok_iff.trans instrOfWord_eq_some_iff, fun h => ?_⟩
  cases hi : instrOfWord w with
  | none => exact decodeWord_of_none hi
  | some i => exact absurd (decodeWord_eq_ok_iff.2 hi) (h i)

end Sys2Proof
end

section
/-! SUPPORT. The host operations (40_cycle_and_tick.md R128 to R132): what the host sets and what it reads of the state. -/

namespace Sys2Proof.Machine

variable (s : State)

@[simp] theorem hostStep_setPressedKeys (mask : Word) :
    hostStep (.setPressedKeys mask) s = .next (s.setKeys mask) := rfl

theorem isBeeping_iff : isBeeping s = true ↔ 0 < s.ST.toNat := decide_eq_true_iff

/-- The row the host reads and the pixel of R32 are the same bit, at a row of the screen. -/
theorem display_getLsbD {y : Nat} (x : Nat) (hy : y < Config.dispRows) :
    (display s)[y].getLsbD (Config.dispCols - 1 - x) = s.pixel x y := by
  rw [State.pixel, dif_pos hy, display]

/-- Settles O46: the operation is the one update `setKeys`, and the two reads are `isBeeping_iff` and `display_getLsbD`. -/
theorem hostOperationsReadAndSet : Obligations.HostOperationsReadAndSet := by
  intro s mask
  exact ⟨hostStep_setPressedKeys s mask, isBeeping_iff s, fun x _ hy => display_getLsbD s x hy⟩

end Sys2Proof.Machine
end

section
/-! SUPPORT. The control flow that touches no memory (41_control_flow.md R150, R152, R154 to R158): each instruction answers
the state with `pc` replaced. -/

namespace Sys2Proof.Machine

variable (s : State)

/-! ### The instructions as equations -/

theorem exec_sys (nnn : Literal12) : exec (.sys nnn) s = .next s.advance := rfl

theorem exec_jp (nnn : Literal12) : exec (.jp nnn) s = .next (s.setPc (literalWord nnn)) := rfl

theorem exec_jpV0 (nnn : Literal12) :
    exec (.jpV0 nnn) s = .next (s.setPc (byteWord (s.getV 0) + literalWord nnn)) := rfl

theorem exec_seImm (x : Reg) (nn : Byte) : exec (.seImm x nn) s = .next (s.advance.skipIf (s.getV x == nn)) := rfl

theorem exec_sneImm (x : Reg) (nn : Byte) : exec (.sneImm x nn) s = .next (s.advance.skipIf (s.getV x != nn)) := rfl

theorem exec_seReg (x y : Reg) : exec (.seReg x y) s = .next (s.advance.skipIf (s.getV x == s.getV y)) := rfl

theorem exec_sneReg (x y : Reg) : exec (.sneReg x y) s = .next (s.advance.skipIf (s.getV x != s.getV y)) := rfl

/-! ### What is written to `pc`, and what is reported -/

/-- The advance and a skip together move `pc` by 4 or by 2 and write nothing else (R10, R123). -/
theorem advance_skipIf (c : Bool) : s.advance.skipIf c = { s with pc := if c then s.pc + 4 else s.pc + 2 } := by
  cases c with
  | false => rfl
  | true => exact congrArg s.setPc (BitVec.add_assoc s.pc 2 2)

/-- A byte and a 12-bit literal add up below 65536, so the 16-bit sum is exact (R154). -/
theorem byteWord_add_literalWord_toNat (b : Byte) (nnn : Literal12) :
    (byteWord b + literalWord nnn).toNat = b.toNat + nnn.toNat := by
  have hb := b.isLt
  have hn := nnn.isLt
  rw [BitVec.toNat_add, byteWord_toNat, literalWord_toNat]
  omega

/-- A cycle that fetches a word with an instruction emits no diagnostic (R262). -/
theorem diagnostic?_of_decoded {i : Instr} (hpc : s.pc.toNat ≤ 4094)
    (hi : decodeWord (wordOfBytes (s.byteAt s.pc.toNat) (s.byteAt (s.pc.toNat + 1))) = .ok i) : diagnostic? s = none := by
  unfold diagnostic?
  cases s.fault with
  | some _ => rfl
  | none => simp only [fetch_ok s hpc, hi]

/-! ### The statements -/

/-- Settles O13: `0NNN` is the advance alone, and it is an instruction, so no diagnostic is emitted. -/
theorem sysIsNoOperation : Obligations.SysIsNoOperation := by
  intro s nnn
  exact ⟨exec_sys s nnn, diagnostic?_of_decoded s⟩

/-- Settles O14: the address is the literal zero-extended. -/
theorem jumpSetsPc : Obligations.JumpSetsPc := by
  intro s nnn
  exact ⟨literalWord nnn, literalWord_toNat nnn, exec_jp s nnn⟩

/-- Settles O15: the 16-bit sum of `V[0]` and the literal does not wrap. -/
theorem jumpWithOffsetSetsPc : Obligations.JumpWithOffsetSetsPc := by
  intro s nnn
  exact ⟨_, byteWord_add_literalWord_toNat (s.getV 0) nnn, exec_jpV0 s nnn⟩

/-- Settles O20: each of the four is the advance and a skip under its condition. -/
theorem registerSkips : Obligations.RegisterSkips := by
  intro s x y nn
  simp only [exec_seImm, exec_sneImm, exec_seReg, exec_sneReg, advance_skipIf, beq_iff_eq, bne_iff_ne, and_self]

end Sys2Proof.Machine
end

section
/-! SUPPORT. The register writes without a flag (42_alu.md R170 to R175, R243): each instruction is the advance and one
`setV`, so two frame facts of that pair serve all of them, and the written byte is what differs. -/

namespace Sys2Proof.Machine

variable (s : State)

/-! ### The instructions as equations -/

theorem exec_ldImm (x : Reg) (nn : Byte) : exec (.ldImm x nn) s = .next (s.advance.setV x nn) := rfl

theorem exec_ldReg (x y : Reg) : exec (.ldReg x y) s = .next (s.advance.setV x (s.getV y)) := rfl

theorem exec_ldVxDT (x : Reg) : exec (.ldVxDT x) s = .next (s.advance.setV x s.DT) := rfl

theorem exec_addImm (x : Reg) (nn : Byte) : exec (.addImm x nn) s = .next (s.advance.setV x (s.getV x + nn)) := rfl

theorem exec_orReg (x y : Reg) : exec (.orReg x y) s = .next (s.advance.setV x (s.getV x ||| s.getV y)) := rfl

theorem exec_andReg (x y : Reg) : exec (.andReg x y) s = .next (s.advance.setV x (s.getV x &&& s.getV y)) := rfl

theorem exec_xorReg (x y : Reg) : exec (.xorReg x y) s = .next (s.advance.setV x (s.getV x ^^^ s.getV y)) := rfl

/-! ### The frame of the advance and one register write -/

/-- Outside the registers only `pc` differs, by 2 (R123). -/
theorem advance_setV (x : Reg) (b : Byte) :
    s.advance.setV x b = { s with pc := s.pc + 2, V := (s.advance.setV x b).V } := rfl

/-- Of the registers only `V[X]` differs; `V[15]` is one like any other. -/
theorem getV_advance_setV_ne (x : Reg) (b : Byte) (r : Reg) (h : r ≠ x) : (s.advance.setV x b).getV r = s.getV r :=
  State.getV_setV_ne s.advance x r b h

/-! ### The statements -/

/-- Settles O21: the byte written is the literal, `V[Y]` or `DT`, read back by `getV_setV_self`. -/
theorem registerLoads : Obligations.RegisterLoads := by
  intro s x y nn
  exact ⟨_, _, _,
    ⟨exec_ldImm s x nn, advance_setV s x _, State.getV_setV_self .., getV_advance_setV_ne s x _⟩,
    ⟨exec_ldReg s x y, advance_setV s x _, State.getV_setV_self .., getV_advance_setV_ne s x _⟩,
    ⟨exec_ldVxDT s x, advance_setV s x _, State.getV_setV_self .., getV_advance_setV_ne s x _⟩⟩

/-- Settles O22: the byte written is the 8-bit sum, whose number is the sum modulo 256. -/
theorem addLiteralWraps : Obligations.AddLiteralWraps := by
  intro s x nn
  refine ⟨_, exec_addImm s x nn, advance_setV s x _, ?_, getV_advance_setV_ne s x _⟩
  rw [State.getV_setV_self]
  exact BitVec.toNat_add (s.getV x) nn

/-- Settles O23: the byte written is the bitwise operation on the operands, and a bit of it is the Boolean operation on
their bits. -/
theorem logicBitByBit : Obligations.LogicBitByBit := by
  intro s x y
  refine ⟨_, _, _,
    ⟨exec_orReg s x y, advance_setV s x _, fun j => ?or, getV_advance_setV_ne s x _⟩,
    ⟨exec_andReg s x y, advance_setV s x _, fun j => ?and, getV_advance_setV_ne s x _⟩,
    ⟨exec_xorReg s x y, advance_setV s x _, fun j => ?xor, getV_advance_setV_ne s x _⟩⟩
  case or => rw [State.getV_setV_self, BitVec.getLsbD_or]
  case and => rw [State.getV_setV_self, BitVec.getLsbD_and]
  case xor => rw [State.getV_setV_self, BitVec.getLsbD_xor]

end Sys2Proof.Machine
end

section
/-! SUPPORT. The writers of the index register (43_index_memory.md R200 to R202): each instruction is the advance and one
`setI`, so one frame fact of that pair serves all three, and the written word is what differs. -/

namespace Sys2Proof.Machine

variable (s : State)

/-! ### The instructions as equations -/

theorem exec_ldI (nnn : Literal12) : exec (.ldI nnn) s = .next (s.advance.setI (literalWord nnn)) := rfl

theorem exec_addI (x : Reg) : exec (.addI x) s = .next (s.advance.setI (s.I + byteWord (s.getV x))) := rfl

theorem exec_ldF (x : Reg) : exec (.ldF x) s = .next (s.advance.setI (glyphAddress (s.getV x))) := rfl

/-! ### The frame and the sum -/

/-- Outside `I` only `pc` differs, by 2 (R123); the registers, `V[15]` with them, are kept. -/
theorem advance_setI (w : Word) : s.advance.setI w = { s with pc := s.pc + 2, I := w } := rfl

/-- The sum passes 4095 freely and wraps at 65536 only (R201). -/
theorem word_add_byteWord_toNat (w : Word) (b : Byte) : (w + byteWord b).toNat = (w.toNat + b.toNat) % 65536 := by
  rw [BitVec.toNat_add, byteWord_toNat]

/-! ### The statement -/

/-- Settles O28: the word written is the zero-extended literal, the 16-bit sum or the glyph's address. -/
theorem indexRegisterWrites : Obligations.IndexRegisterWrites := by
  intro s x nnn
  simp only [exec_ldI, exec_addI, exec_ldF, advance_setI]
  exact ⟨_, _, _,
    ⟨literalWord_toNat nnn, rfl⟩,
    ⟨word_add_byteWord_toNat s.I (s.getV x), rfl⟩,
    ⟨glyphAddress_toNat (s.getV x), rfl⟩⟩

end Sys2Proof.Machine
end

section
/-! SUPPORT. Clearing the display (44_display.md R220): `00E0` is the advance and one `setDisp` of the blank display. -/

namespace Sys2Proof.Machine

variable (s : State)

/-- The display every row of which is 0. -/
def blankDisplay : Vector Row 32 := Vector.replicate 32 0

theorem blankDisplay_getElem (y : Nat) (h : y < 32) : blankDisplay[y] = 0 := Vector.getElem_replicate h

/-- A display of rows 0 shows no lit pixel, on the screen or off it (R32). -/
theorem pixelOf_blankDisplay (x y : Nat) : pixelOf blankDisplay x y = false := by
  unfold pixelOf
  split
  · rw [blankDisplay_getElem]
    exact BitVec.getLsbD_zero
  · rfl

theorem exec_cls : exec .cls s = .next (s.advance.setDisp blankDisplay) := rfl

/-- Outside the display only `pc` differs, by 2 (R123); the registers, `V[15]` with them, are kept. -/
theorem advance_setDisp (d : Vector Row 32) : s.advance.setDisp d = { s with pc := s.pc + 2, disp := d } := rfl

/-- Settles O34: the display written is the blank one. -/
theorem clearDisplayRows : Obligations.ClearDisplayRows := by
  intro s
  exact ⟨_, exec_cls s, advance_setDisp s blankDisplay, blankDisplay_getElem, pixelOf_blankDisplay⟩

end Sys2Proof.Machine
end

section
/-! SUPPORT. The encoder against the decoder (30_encoding.md R92, R94, R97, R101): the word of a well-formed instruction
stands in the instruction's row of the opcode map, and the word of a row is assembled from its fields. -/

namespace Sys2Proof

variable {w : Word} {i : Instr}

/-! ### The word of an instruction stands in its row -/

/-- Whatever the operands, the fixed bits of the row are set (R96). -/
theorem encode_and_encMask (i : Instr) : encode i &&& i.encMask = i.encMatch := by
  open Laws.RowBits in
  cases i
  exacts [cls, ret, sys _, jp _, call _, seImm _ _, sneImm _ _, seReg _ _, ldImm _ _, addImm _ _, ldReg _ _, orReg _ _,
    andReg _ _, xorReg _ _, addReg _ _, subReg _ _, shr _ _, subnReg _ _, shl _ _, sneReg _ _, ldI _, jpV0 _, rnd _ _,
    drw _ _ _, skp _, sknp _, ldVxDT _, ldVxK _, ldDTVx _, ldSTVx _, addI _, ldF _, ldB _, storeRegs _, loadRegs _]

/-- The operands are the fields of the word (R91, R92). -/
theorem operandsAre_encode (i : Instr) : i.operandsAre (encode i) := by
  cases i <;>
    simp only [Instr.operandsAre, encode, nnnOf_formatNNN, xOf_formatXNN, nnOf_formatXNN, xOf_formatXYN, yOf_formatXYN,
      nOf_formatXYN, and_self]

/-- The word of a well-formed `SYS` is neither of the two words carved out of `0NNN` (R94, R101). -/
theorem formatNNN_zero_ne_carved {nnn : Literal12} (h : sysLiteralOk nnn = true) :
    formatNNN 0x0 nnn ≠ 0x00E0 ∧ formatNNN 0x0 nnn ≠ 0x00EE := by
  simp only [sysLiteralOk, Bool.and_eq_true, bne_iff_ne] at h
  obtain ⟨hcls, hret⟩ := h
  constructor
  · intro e; exact hcls ((nnnOf_formatNNN 0x0 nnn).symm.trans (congrArg nnnOf e))
  · intro e; exact hret ((nnnOf_formatNNN 0x0 nnn).symm.trans (congrArg nnnOf e))

theorem isRowOf_encode (h : i.wellFormed = true) : i.IsRowOf (encode i) := by
  refine ⟨encode_and_encMask i, fun hz => ?_, operandsAre_encode i⟩
  cases i with
  | sys nnn => exact formatNNN_zero_ne_carved h
  | _ => exact absurd hz (by simp [Instr.encMatch])

theorem decodeWord_encode (h : i.wellFormed = true) : decodeWord (encode i) = .ok i :=
  decodeWord_eq_ok_iff.2 (instrOfWord_of_isRowOf (isRowOf_encode h))

/-- Two bytes in memory order are read as the word they were taken from (R60, R90). -/
theorem decodeBytes_bytesOfWord (rest : List Byte) (h : decodeWord w = .ok i) :
    decodeBytes (bytesOfWord w ++ rest) = .ok (i, rest) := by
  simp [bytesOfWord, decodeBytes, h]

/-- Settles O1: the word of a well-formed instruction stands in its row (`isRowOf_encode`), and the decoder reads a row as
its instruction. -/
theorem decodeEncodeRoundTrip : Obligations.DecodeEncodeRoundTrip := by
  intro i rest h
  have hw := decodeWord_encode h
  exact ⟨hw, decodeBytes_bytesOfWord rest hw⟩

/-! ### The word of a row is assembled from its fields -/

theorem formatNNN_fields (w : Word) : formatNNN (majorOf w) (nnnOf w) = w := by
  apply BitVec.eq_of_toNat_eq
  rw [formatNNN_toNat, majorOf_toNat, nnnOf_toNat]; omega

/-- The fixed bits of a row are the major and the minor opcode, and the operands are the other fields, so no bit is
dropped. -/
theorem encode_eq_of_isRowOf (h : i.IsRowOf w) : encode i = w := by
  obtain ⟨hbits, -, hops⟩ := h
  cases i with
  | cls | ret => exact (BitVec.and_allOnes.symm.trans hbits).symm
  | sys | jp | call | ldI | jpV0 =>
    obtain rfl := hops
    simp (disch := decide) only [Instr.encMask, Instr.encMatch, BitVec.ofNat_eq_ofNat, and_F000_eq_iff] at hbits
    exact (congrArg (formatNNN · _) hbits.symm).trans (formatNNN_fields w)
  | seImm | sneImm | ldImm | addImm | rnd =>
    obtain ⟨rfl, rfl⟩ := hops
    simp (disch := decide) only [Instr.encMask, Instr.encMatch, BitVec.ofNat_eq_ofNat, and_F000_eq_iff] at hbits
    exact (congrArg (formatXNN · _ _) hbits.symm).trans (formatXNN_fields w)
  | drw =>
    obtain ⟨rfl, rfl, rfl⟩ := hops
    simp (disch := decide) only [Instr.encMask, Instr.encMatch, BitVec.ofNat_eq_ofNat, and_F000_eq_iff] at hbits
    exact (congrArg (formatXYN · _ _ _) hbits.symm).trans (formatXYN_fields w)
  | seReg | ldReg | orReg | andReg | xorReg | addReg | subReg | shr | subnReg | shl | sneReg =>
    obtain ⟨rfl, rfl⟩ := hops
    simp (disch := decide) only [Instr.encMask, Instr.encMatch, BitVec.ofNat_eq_ofNat, and_F00F_eq_iff] at hbits
    obtain ⟨hm, hn⟩ := hbits
    exact (congrArg₂ (formatXYN · _ _ ·) hm.symm hn.symm).trans (formatXYN_fields w)
  | skp | sknp | ldVxDT | ldVxK | ldDTVx | ldSTVx | addI | ldF | ldB | storeRegs | loadRegs =>
    obtain rfl := hops
    simp (disch := decide) only [Instr.encMask, Instr.encMatch, BitVec.ofNat_eq_ofNat, and_F0FF_eq_iff] at hbits
    obtain ⟨hm, hn⟩ := hbits
    exact (congrArg₂ (formatXNN · _ ·) hm.symm hn.symm).trans (formatXNN_fields w)

/-- Only a `SYS` could be ill-formed, and its row excludes the two words its literal must not give (R94, R101). -/
theorem wellFormed_of_isRowOf (h : i.IsRowOf w) : i.wellFormed = true := by
  have henc := encode_eq_of_isRowOf h
  obtain ⟨-, hcarve, -⟩ := h
  cases i with
  | sys nnn =>
    obtain ⟨hcls, hret⟩ := hcarve rfl
    simp only [Instr.wellFormed, sysLiteralOk, Bool.and_eq_true, bne_iff_ne]
    constructor
    · rintro rfl; exact hcls henc.symm
    · rintro rfl; exact hret henc.symm
  | _ => rfl

/-- Settles O2: a word decodes to the instruction whose row it stands in, and the row gives the word back. -/
theorem encodeOfDecodedWord : Obligations.EncodeOfDecodedWord := by
  intro w i h
  have hrow := isRowOf_of_instrOfWord (decodeWord_eq_ok_iff.1 h)
  exact ⟨wellFormed_of_isRowOf hrow, encode_eq_of_isRowOf hrow⟩

/-! ### The words that are no instruction -/

theorem decodeAlu_eq_none_iff (x y : Reg) (n : Nibble) :
    decodeAlu x y n = none ↔ n ∈ [0x8, 0x9, 0xA, 0xB, 0xC, 0xD, 0xF] := by
  fun_cases decodeAlu x y n
  case case10 => simp; bv_omega
  all_goals simp [*]

theorem decodeKey_eq_none_iff (x : Reg) (nn : Byte) : decodeKey x nn = none ↔ nn ∉ [0x9E, 0xA1] := by
  fun_cases decodeKey x nn <;> simp_all

theorem decodeMisc_eq_none_iff (x : Reg) (nn : Byte) :
    decodeMisc x nn = none ↔ nn ∉ [0x07, 0x0A, 0x15, 0x18, 0x1E, 0x29, 0x33, 0x55, 0x65] := by
  fun_cases decodeMisc x nn <;> simp_all

theorem decodeWord_eq_unrecognized_iff : decodeWord w = .error (.unrecognized w) ↔ instrOfWord w = none := by
  unfold decodeWord
  cases instrOfWord w <;> simp

/-- Settles O4: along the lines of R94, only the lines of the major opcodes 5, 8, 9, E and F can reject, each by its minor
opcode. -/
theorem unrecognizedWordsExactly : Obligations.UnrecognizedWordsExactly := by
  intro w
  rw [decodeWord_eq_unrecognized_iff]
  fun_cases instrOfWord w
  case case1 | case2 => subst w; decide
  case case20 =>
    have hm : majorOf w = 0xF := by bv_omega
    simp [decodeMisc_eq_none_iff, hm]
  all_goals simp_all [decodeAlu_eq_none_iff, decodeKey_eq_none_iff]

/-- Settles O5: the decoder run on the nine words. -/
theorem sampleWordsDecode : Obligations.SampleWordsDecode := by
  unfold Obligations.SampleWordsDecode
  decide

end Sys2Proof
end

section
/-! SUPPORT. The four cycles a step can be (40_cycle_and_tick.md R120, R124; 60_exceptions.md R262, R267, R271), each as an
equation under the condition that selects it, and the event of a cycle (R262). -/

namespace Sys2Proof.Machine

variable {s : State} {w : Word} {i : Instr}

/-- The word the bytes at `pc` form, high byte first (R60). -/
def State.wordAtPc (s : State) : Word := wordOfBytes (s.byteAt s.pc.toNat) (s.byteAt (s.pc.toNat + 1))

theorem wordAtPc_toNat (s : State) :
    s.wordAtPc.toNat = (s.byteAt s.pc.toNat).toNat * 256 + (s.byteAt (s.pc.toNat + 1)).toNat := wordOfBytes_toNat _ _

theorem fetch_eq_wordAtPc (hpc : s.pc.toNat ≤ 4094) : fetch s = .ok s.wordAtPc := fetch_ok s hpc

/-! ### The step -/

theorem step_of_fetched (hf : s.fault = none) (hw : fetch s = .ok w) (hi : decodeWord w = .ok i) : step s = exec i s := by
  simp only [step, hf, hw, hi]

theorem step_of_unrecognized (hf : s.fault = none) (hw : fetch s = .ok w) (hi : decodeWord w = .error (.unrecognized w)) :
    step s = .next s.advance := by
  simp only [step, hf, hw, hi, runUnrecognized]

theorem step_of_fetch_outside (hf : s.fault = none) (hpc : 4094 < s.pc.toNat) :
    step s = .next (takeFault s ⟨.fetchOutOfBounds, s.pc.setWidth 17⟩) := by
  simp only [step, hf, fetch_error s hpc]

/-! ### The event -/

theorem diagnostic?_of_unrecognized (hf : s.fault = none) (hw : fetch s = .ok w)
    (hi : decodeWord w = .error (.unrecognized w)) : diagnostic? s = some ⟨s.pc, w⟩ := by
  simp only [diagnostic?, hf, hw, hi]

theorem diagnostic?_of_faulted (hf : s.fault.isSome) : diagnostic? s = none := by
  obtain ⟨r, hr⟩ := Option.isSome_iff_exists.1 hf
  simp only [diagnostic?, hr]

theorem diagnostic?_of_fetch_outside (hf : s.fault = none) (hpc : 4094 < s.pc.toNat) : diagnostic? s = none := by
  simp only [diagnostic?, hf, fetch_error s hpc]

/-- An event comes only from a cycle that fetches an unrecognized word, and carries it with its address. -/
theorem diagnostic?_eq_some {d : Diag} (h : diagnostic? s = some d) :
    s.fault = none ∧ s.pc.toNat ≤ 4094 ∧ d = ⟨s.pc, s.wordAtPc⟩ ∧
      decodeWord s.wordAtPc = .error (.unrecognized s.wordAtPc) := by
  cases hf : s.fault with
  | some r => simp [diagnostic?_of_faulted (s := s) (by simp [hf])] at h
  | none =>
    by_cases hpc : s.pc.toNat ≤ 4094
    · cases hi : instrOfWord s.wordAtPc with
      | some i => simp [diagnostic?_of_decoded s hpc (decodeWord_eq_ok_iff.2 hi)] at h
      | none =>
        have hu := decodeWord_of_none hi
        rw [diagnostic?_of_unrecognized hf (fetch_eq_wordAtPc hpc) hu] at h
        exact ⟨rfl, hpc, (Option.some.inj h).symm, hu⟩
    · simp [diagnostic?_of_fetch_outside hf (by omega)] at h

/-! ### The statements -/

/-- Settles O6: the word with that number is the word fetched. -/
theorem stepRunsDecodedInstruction : Obligations.StepRunsDecodedInstruction := by
  intro s w i hf hpc hw hi
  have hfetch : fetch s = .ok w := by
    rw [fetch_eq_wordAtPc hpc, BitVec.eq_of_toNat_eq (hw.trans (wordAtPc_toNat s).symm)]
  exact step_of_fetched hf hfetch hi

/-- A table word that is read at all is read as the word it stands for: its two bytes are put together again. -/
theorem decodeWord_of_decodeTableWord {nbits w : Nat} (h : decodeTableWord nbits w = some i) :
    decodeWord (tableWord nbits w) = .ok i := by
  simp only [decodeTableWord, bytesOfWord, decodeBytes, wordOfBytes_high_low] at h
  cases hd : decodeWord (tableWord nbits w) with
  | ok j =>
    obtain ⟨-, rfl⟩ : nbits ≤ 16 ∧ j = i := by simpa [hd] using h
    rfl
  | error e => simp [hd] at h

/-- Settles O7: the word placed is the word fetched (`fetch_placeFetchWord`), with no fault latched. -/
theorem stepRunsPlacedInstruction : Obligations.StepRunsPlacedInstruction := by
  intro s nbits w i h
  exact step_of_fetched (placeFetchWord_fault ..) (fetch_placeFetchWord ..) (decodeWord_of_decodeTableWord h)

/-- Settles O8: the cycle is the advance with its event, and `diagnostic?_eq_some` is the converse. -/
theorem unrecognizedWordOnlyAdvances : Obligations.UnrecognizedWordOnlyAdvances := by
  constructor
  · rintro s w hf hpc rfl hi
    have hw := fetch_ok s hpc
    exact ⟨step_of_unrecognized hf hw hi, diagnostic?_of_unrecognized hf hw hi⟩
  · intro s d h
    obtain ⟨hf, hpc, rfl, hi⟩ := diagnostic?_eq_some h
    exact ⟨hf, hpc, rfl, rfl, hi⟩

/-- Settles O9: fault entry of the fetch, which sets the latch only. -/
theorem fetchOutsideMemoryFaults : Obligations.FetchOutsideMemoryFaults := by
  intro s hf hpc
  exact step_of_fetch_outside hf hpc

end Sys2Proof.Machine
end

section
/-! SUPPORT. The cycle of every instruction as one equation (40_cycle_and_tick.md R124, R125; 60_exceptions.md R266): the
condition under which it completes, the state it then leaves, and what it raises otherwise. Later proofs about all
instructions split on the condition and read the state, and do not unfold a meaning. -/

namespace Sys2Proof.Machine

variable (s : State)

/-! ### `FX0A` -/

/-- The state as it is while no key is down; else the advance and the lowest key that is down (R242). -/
def State.awaitKey (x : Reg) : State :=
  if s.keys = 0 then s else s.advance.setV x (BitVec.ofNat 8 (lowestSetBit s.keys))

theorem State.awaitKey_wait (x : Reg) (h : s.keys = 0) : s.awaitKey x = s := if_pos h

theorem State.awaitKey_key (x : Reg) (h : s.keys ≠ 0) :
    s.awaitKey x = s.advance.setV x (BitVec.ofNat 8 (lowestSetBit s.keys)) := if_neg h

/-- With no key down the advance is undone. -/
theorem exec_ldVxK (x : Reg) : exec (.ldVxK x) s = .next (s.awaitKey x) := by
  have hexec : exec (.ldVxK x) s = .next (if s.keys = 0 then s.advance.setPc (s.advance.pc - 2)
      else s.advance.setV x (BitVec.ofNat 8 (lowestSetBit s.keys))) := rfl
  by_cases h : s.keys = 0
  · rw [hexec, if_pos h, State.awaitKey_wait s x h]
    exact congrArg (fun p => Host.Outcome.next (s.setPc p)) (BitVec.add_sub_cancel s.pc 2)
  · rw [hexec, if_neg h, State.awaitKey_key s x h]

/-- Of the state only `V[x]` and `pc` can differ. -/
theorem State.awaitKey_frame (x : Reg) :
    s.awaitKey x = { s with pc := (s.awaitKey x).pc, V := (s.awaitKey x).V } := by
  by_cases h : s.keys = 0
  · rw [awaitKey_wait s x h]
  · rw [awaitKey_key s x h]; rfl

@[simp] theorem State.awaitKey_mem (x : Reg) : (s.awaitKey x).mem = s.mem := by rw [awaitKey_frame]
@[simp] theorem State.awaitKey_I (x : Reg) : (s.awaitKey x).I = s.I := by rw [awaitKey_frame]
@[simp] theorem State.awaitKey_sp (x : Reg) : (s.awaitKey x).sp = s.sp := by rw [awaitKey_frame]
@[simp] theorem State.awaitKey_DT (x : Reg) : (s.awaitKey x).DT = s.DT := by rw [awaitKey_frame]
@[simp] theorem State.awaitKey_ST (x : Reg) : (s.awaitKey x).ST = s.ST := by rw [awaitKey_frame]
@[simp] theorem State.awaitKey_keys (x : Reg) : (s.awaitKey x).keys = s.keys := by rw [awaitKey_frame]
@[simp] theorem State.awaitKey_disp (x : Reg) : (s.awaitKey x).disp = s.disp := by rw [awaitKey_frame]
@[simp] theorem State.awaitKey_fault (x : Reg) : (s.awaitKey x).fault = s.fault := by rw [awaitKey_frame]
@[simp] theorem State.awaitKey_source (x : Reg) : (s.awaitKey x).source = s.source := by rw [awaitKey_frame]

theorem State.getV_awaitKey_ne (x r : Reg) (h : r ≠ x) : (s.awaitKey x).getV r = s.getV r := by
  by_cases hk : s.keys = 0
  · rw [awaitKey_wait s x hk]
  · rw [awaitKey_key s x hk]; exact getV_advance_setV_ne s x _ r h

/-! ### Completion and raise -/

/-- The checks of the instruction pass (R268 to R270, R273). -/
def Completes : Instr → Prop
  | .ret => s.sp.toNat < 3840
  | .call _ => 3584 < s.sp.toNat ∧ s.sp.toNat ≤ 4096
  | .skp x | .sknp x => (s.getV x).toNat ≤ 15
  | .ldB _ => s.I.toNat + 3 ≤ 4096
  | .storeRegs x | .loadRegs x => s.I.toNat + (x.val + 1) ≤ 4096
  | .drw _ _ n => n.toNat = 0 ∨ s.I.toNat + n.toNat ≤ 4096
  | _ => True

/-- The state the instruction leaves when its checks pass. -/
def completion : Instr → State
  | .cls => s.advance.setDisp blankDisplay
  | .ret => (s.advance.setPc (wordOfBytes (s.byteAt s.sp.toNat) (s.byteAt (s.sp.toNat + 1)))).setSp (s.sp + 2)
  | .sys _ => s.advance
  | .jp nnn => s.setPc (literalWord nnn)
  | .call nnn => ((s.advance.setMem (s.mem.writes (s.sp.toNat - 2) (bytesOfWord (s.pc + 2)))).setSp (s.sp - 2)).setPc
      (literalWord nnn)
  | .seImm x nn => s.advance.skipIf (s.getV x == nn)
  | .sneImm x nn => s.advance.skipIf (s.getV x != nn)
  | .seReg x y => s.advance.skipIf (s.getV x == s.getV y)
  | .ldImm x nn => s.advance.setV x nn
  | .addImm x nn => s.advance.setV x (s.getV x + nn)
  | .ldReg x y => s.advance.setV x (s.getV y)
  | .orReg x y => s.advance.setV x (s.getV x ||| s.getV y)
  | .andReg x y => s.advance.setV x (s.getV x &&& s.getV y)
  | .xorReg x y => s.advance.setV x (s.getV x ^^^ s.getV y)
  | .addReg x y => (s.advance.setV x (s.getV x + s.getV y)).setFlag (carryOut (s.getV x) (s.getV y))
  | .subReg x y => (s.advance.setV x (s.getV x - s.getV y)).setFlag (notBorrow (s.getV x) (s.getV y))
  | .shr x _ => (s.advance.setFlag (bitOutRight (s.getV x))).setV x
      ((s.advance.setFlag (bitOutRight (s.getV x))).getV x >>> 1)
  | .subnReg x y => (s.advance.setV x (s.getV y - s.getV x)).setFlag (notBorrow (s.getV y) (s.getV x))
  | .shl x _ => (s.advance.setFlag (bitOutLeft (s.getV x))).setV x
      ((s.advance.setFlag (bitOutLeft (s.getV x))).getV x <<< 1)
  | .sneReg x y => s.advance.skipIf (s.getV x != s.getV y)
  | .ldI nnn => s.advance.setI (literalWord nnn)
  | .jpV0 nnn => s.setPc (byteWord (s.getV 0) + literalWord nnn)
  | .rnd x nn => (s.advance.setV x (s.nextRandom &&& nn)).countDraw
  | .drw x y n => (s.advance.setDisp (drawn s x y n).1).setFlag (drawn s x y n).2
  | .skp x => s.advance.skipIf (s.keys.getLsbD (s.getV x).toNat)
  | .sknp x => s.advance.skipIf (!s.keys.getLsbD (s.getV x).toNat)
  | .ldVxDT x => s.advance.setV x s.DT
  | .ldVxK x => s.awaitKey x
  | .ldDTVx x => s.advance.setDT (s.getV x)
  | .ldSTVx x => s.advance.setST (s.getV x)
  | .addI x => s.advance.setI (s.I + byteWord (s.getV x))
  | .ldF x => s.advance.setI (glyphAddress (s.getV x))
  | .ldB x => s.advance.setMem (s.mem.writes s.I.toNat (decimalDigits (s.getV x)))
  | .storeRegs x => s.advance.setMem (s.mem.writes s.I.toNat (s.regsUpTo x))
  | .loadRegs x => s.advance.setRegsFrom 0 (s.mem.reads s.I.toNat (x.val + 1))

/-- What the instruction raises when a check fails (R265). -/
def raising : Instr → Raise
  | .ret => ⟨.stackUnderflow, s.sp.setWidth 17⟩
  | .call _ =>
    if s.sp.toNat ≤ 3584 then ⟨.stackOverflow, s.sp.setWidth 17⟩
    else ⟨.dataOutOfBounds, BitVec.ofNat 17 (max (s.sp.toNat - 2) 4096)⟩
  | .skp x | .sknp x => ⟨.keyIndexOutOfRange, (s.getV x).setWidth 17⟩
  | _ => indexFault s

variable {s} {i : Instr}

theorem exec_of_completes (h : Completes s i) : exec i s = .next (completion s i) := by
  cases i with
  | ret => exact exec_ret_ok s h
  | call nnn => exact exec_call_ok s nnn h.1 h.2
  | skp x => exact exec_skp_ok s x h
  | sknp x => exact exec_sknp_ok s x h
  | ldB x => exact exec_ldB_ok s x h
  | storeRegs x => exact exec_storeRegs_ok s x h
  | loadRegs x => exact exec_loadRegs_ok s x h
  | drw x y n => exact exec_drw_ok s x y n h
  | ldVxK x => exact exec_ldVxK s x
  | _ => rfl

theorem exec_of_not_completes (h : ¬ Completes s i) : exec i s = .next (takeFault s (raising s i)) := by
  cases i with
  | ret => exact exec_ret_fault s (Nat.le_of_not_lt h)
  | call nnn =>
    have hsp : s.sp.toNat ≤ 3584 ∨ 4096 < s.sp.toNat := by simp only [Completes] at h; omega
    rcases hsp with hlow | hhigh
    · rw [raising, if_pos hlow]; exact exec_call_overflow s nnn hlow
    · rw [raising, if_neg (by omega)]; exact exec_call_outside s nnn hhigh
  | skp x => exact exec_skp_fault s x (Nat.lt_of_not_le h)
  | sknp x => exact exec_sknp_fault s x (Nat.lt_of_not_le h)
  | ldB x => exact exec_ldB_fault s x (Nat.lt_of_not_le h)
  | storeRegs x => exact exec_storeRegs_fault s x (Nat.lt_of_not_le h)
  | loadRegs x => exact exec_loadRegs_fault s x (Nat.lt_of_not_le h)
  | drw x y n =>
    obtain ⟨hn, hI⟩ := not_or.1 h
    exact exec_drw_fault s x y n (Nat.pos_of_ne_zero hn) (Nat.lt_of_not_le hI)
  | _ => exact absurd trivial h

/-- Everything an instruction can do: complete, or raise. -/
theorem exec_inversion {t : State} (h : exec i s = .next t) :
    (Completes s i ∧ t = completion s i) ∨ (¬ Completes s i ∧ t = takeFault s (raising s i)) := by
  by_cases hc : Completes s i
  · rw [exec_of_completes hc] at h; cases h; exact .inl ⟨hc, rfl⟩
  · rw [exec_of_not_completes hc] at h; cases h; exact .inr ⟨hc, rfl⟩

/-! ### What completion can write (10_state.md R38) -/

variable (s i)

@[simp] theorem completion_fault : (completion s i).fault = s.fault := by cases i <;> simp [completion]

@[simp] theorem completion_keys : (completion s i).keys = s.keys := by cases i <;> simp [completion]

theorem completion_sp : (completion s i).sp = s.sp ∨ i = .ret ∨ ∃ nnn, i = .call nnn := by
  cases i <;> simp [completion]

theorem completion_I :
    (completion s i).I = s.I ∨ (∃ nnn, i = .ldI nnn) ∨ ∃ x, i = .addI x ∨ i = .ldF x := by
  cases i <;> simp [completion]

theorem completion_DT : (completion s i).DT = s.DT ∨ ∃ x, i = .ldDTVx x := by cases i <;> simp [completion]

theorem completion_ST : (completion s i).ST = s.ST ∨ ∃ x, i = .ldSTVx x := by cases i <;> simp [completion]

theorem completion_disp : (completion s i).disp = s.disp ∨ i = .cls ∨ ∃ x y n, i = .drw x y n := by
  cases i <;> simp [completion]

theorem completion_source : (completion s i).source = s.source ∨ ∃ x nn, i = .rnd x nn := by
  cases i <;> simp [completion]

theorem completion_mem :
    (completion s i).mem = s.mem ∨ (∃ nnn, i = .call nnn) ∨ (∃ x, i = .ldB x) ∨ ∃ x, i = .storeRegs x := by
  cases i <;> simp [completion]

end Sys2Proof.Machine
end

section
/-! SUPPORT. The invariant of the machine (10_state.md R27, R31, R34): what an instruction does to the three things it speaks
of, memory, `sp` and the latch, and from there every step, tick and host operation. -/

namespace Sys2Proof.Machine

variable {s t : State} {i : Instr}

/-! ### Completion -/

/-- Completion writes memory inside 4096 bytes only: the checks bound every footprint (R31, R66). -/
theorem completion_memory_wf (hc : Completes s i) (h : s.mem.wf) : (completion s i).mem.wf := by
  rcases completion_mem s i with hm | ⟨nnn, rfl⟩ | ⟨x, rfl⟩ | ⟨x, rfl⟩
  · rw [hm]; exact h
  · obtain ⟨hlow, hhigh⟩ : 3584 < s.sp.toNat ∧ s.sp.toNat ≤ 4096 := hc
    exact Memory.wf_writes _ _ _ h (by simp only [bytesOfWord_length, Config.memSize]; omega)
  · exact Memory.wf_writes _ _ _ h hc
  · exact Memory.wf_writes _ _ _ h (by rw [regsUpTo_length]; exact hc)

/-- `sp` in the bounds of R27, as numbers. -/
theorem stackOk_iff (s : State) : s.stackOk ↔ s.sp.toNat % 2 = 0 ∧ 3584 ≤ s.sp.toNat ∧ s.sp.toNat ≤ 3840 := Iff.rfl

theorem return_slot (h : s.sp.toNat < 3840) : (s.sp + 2).toNat = s.sp.toNat + 2 := by
  rw [BitVec.toNat_add]; simp; omega

/-- Only a call and a return move `sp`, by one slot and inside the bounds (R27, R151, R153). -/
theorem completion_stackOk (hc : Completes s i) (h : s.stackOk) : (completion s i).stackOk := by
  rw [stackOk_iff] at h ⊢
  rcases completion_sp s i with hsp | rfl | ⟨nnn, rfl⟩
  · rw [hsp]; exact h
  · have hc : s.sp.toNat < 3840 := hc
    have hsp : (completion s .ret).sp.toNat = s.sp.toNat + 2 := return_slot hc
    omega
  · have hc : 3584 < s.sp.toNat ∧ s.sp.toNat ≤ 4096 := hc
    have hsp : (completion s (.call nnn)).sp.toNat = s.sp.toNat - 2 := call_slot s hc.1
    omega

/-! ### Raise -/

/-- The detail of a footprint is the lowest invalid address in it (R268). -/
theorem indexFault_info_toNat (s : State) : (indexFault s).info.toNat = max s.I.toNat 4096 := by
  have := s.I_toNat_lt
  simp only [BitVec.toNat_ofNat]; omega

/-- A call that is refused with `sp` in bounds is refused at the lower bound, so never for its slot (R269). -/
theorem raising_call (nnn : Literal12) (h : s.stackOk) (hc : ¬ Completes s (.call nnn)) :
    s.sp.toNat = 3584 ∧ raising s (.call nnn) = ⟨.stackOverflow, s.sp.setWidth 17⟩ := by
  rw [stackOk_iff] at h
  have hc : ¬ (3584 < s.sp.toNat ∧ s.sp.toNat ≤ 4096) := hc
  exact ⟨by omega, if_pos (by omega)⟩

/-- A return that is refused with `sp` in bounds is refused at the upper bound (R270). -/
theorem raising_ret (h : s.stackOk) (hc : ¬ Completes s .ret) : s.sp.toNat = 3840 := by
  rw [stackOk_iff] at h
  have hc : ¬ s.sp.toNat < 3840 := hc
  omega

/-- The record of a raise fits the state it is latched in, which is the one at the start of the cycle (R34, R266). -/
theorem takeFault_raising_fits (h : s.stackOk) (hc : ¬ Completes s i) :
    FaultRecord.fits ⟨(raising s i).cause, s.pc, (raising s i).info⟩ (takeFault s (raising s i)) := by
  refine ⟨rfl, ?_⟩
  cases i with
  | ret =>
    have hsp := raising_ret h hc
    exact ⟨BitVec.toNat_setWidth_of_le (by decide), by simp [State.depth, hsp]⟩
  | call nnn =>
    obtain ⟨hsp, hr⟩ := raising_call nnn h hc
    rw [hr]
    exact ⟨BitVec.toNat_setWidth_of_le (by decide), by simp [State.depth, hsp]⟩
  | skp x | sknp x =>
    have hkey : 15 < (s.getV x).toNat := Nat.lt_of_not_le hc
    have hbyte := s.getV_toNat_lt x
    have hinfo : ((s.getV x).setWidth 17).toNat = (s.getV x).toNat := BitVec.toNat_setWidth_of_le (by decide)
    simp only [raising, hinfo, Config.nKeys, Config.regBits]
    omega
  | ldB x | storeRegs x | loadRegs x | drw x y n => exact indexFault_info_toNat s
  | _ => exact absurd trivial hc

/-! ### Every step -/

theorem inv_of_unfaulted (hm : s.mem.wf) (hsp : s.stackOk) (hf : s.fault = none) : s.Inv where
  memory := hm
  stack := hsp
  latch := by simp [hf]

/-- Fault entry keeps memory and `sp`, so the invariant asks only that the new record fits. -/
theorem inv_takeFault {r : Raise} (hs : s.Inv) (hr : FaultRecord.fits ⟨r.cause, s.pc, r.info⟩ (takeFault s r)) :
    (takeFault s r).Inv where
  memory := hs.memory
  stack := hs.stack
  latch := by rintro _ ⟨⟩; exact hr

theorem exec_keeps_inv (hs : s.Inv) (hf : s.fault = none) (h : exec i s = .next t) : t.Inv := by
  rcases exec_inversion h with ⟨hc, rfl⟩ | ⟨hc, rfl⟩
  · exact inv_of_unfaulted (completion_memory_wf hc hs.memory) (completion_stackOk hc hs.stack)
      ((completion_fault s i).trans hf)
  · exact inv_takeFault hs (takeFault_raising_fits hs.stack hc)

/-- Settles O49: standing still keeps the invariant, the fetch fault names `pc`, an unrecognized word moves `pc` alone, and
an instruction keeps it by `exec_keeps_inv`. -/
theorem stepKeepsInvariant : Obligations.StepKeepsInvariant := by
  intro s t hs h
  rcases step_cases s with ⟨_, e⟩ | ⟨_, hpc, e⟩ | ⟨hf, _, _, _, _, e⟩ | ⟨hf, _, _, i, _, _, e⟩ <;> rw [e] at h
  · cases h; exact hs
  · cases h
    refine inv_takeFault hs ⟨rfl, ?_⟩
    have hinfo : (s.pc.setWidth 17).toNat = s.pc.toNat := BitVec.toNat_setWidth_of_le (by decide)
    simp only [hinfo, takeFault_pc, Config.memSize, and_true]
    omega
  · cases h; exact inv_of_unfaulted hs.memory hs.stack hf
  · exact exec_keeps_inv hs hf h

/-! ### The host operations and the reachable states -/

theorem reset_stackOk : State.reset.stackOk := by decide

theorem construct_inv {image : List Byte} {stream : Nat} (h : construct image stream = .next s) : s.Inv := by
  by_cases hlen : image.length ≤ 3584
  · rw [construct_ok image stream hlen] at h
    cases h
    have hfit : 512 + image.length ≤ Config.memSize := by simp only [Config.memSize]; omega
    exact inv_of_unfaulted (Memory.wf_writes _ _ _ Memory.wf_nil hfit) reset_stackOk rfl
  · rw [construct_refused image stream (by omega)] at h
    cases h

theorem timerStep_inv (hs : s.Inv) (hf : s.fault = none) : (timerStep s).Inv :=
  inv_of_unfaulted hs.memory hs.stack hf

/-- The keys are no part of the invariant, with a fault latched or without. -/
theorem setPressedKeys_inv (mask : Word) (hs : s.Inv) : (setPressedKeys mask s).Inv where
  memory := hs.memory
  stack := hs.stack
  latch := hs.latch

theorem advanceTick_inv {n : Nat} (hs : s.Inv) (h : advanceTick n s = .next t) : t.Inv := by
  have hcycles {u : State} : runCycles n s = .next u → u.Inv := runCycles_induction stepKeepsInvariant n s u hs
  rcases advanceTick_cases n s with ⟨_, e⟩ | ⟨_, u, hu, _, e⟩ | ⟨_, u, hu, hf, e⟩ <;> rw [e] at h <;> cases h
  · exact hs
  · exact hcycles hu
  · exact timerStep_inv (hcycles hu) hf

/-- Settles O48: memory is written from the empty one inside the 4096 bytes, `sp` is at the upper bound, no fault is
latched. -/
theorem resetMeetsInvariant : Obligations.ResetMeetsInvariant :=
  ⟨inv_of_unfaulted Memory.wf_nil reset_stackOk rfl, fun _ _ _ => construct_inv⟩

/-- Settles O50: reset by `construct_inv`, the keys are no part of the invariant, a tick is cycles and a timer step. -/
theorem hostOperationsKeepInvariant : Obligations.HostOperationsKeepInvariant := by
  intro op s t hs h
  cases op with
  | construct image stream => exact construct_inv h
  | setPressedKeys mask => cases h; exact setPressedKeys_inv mask hs
  | advanceTick n => exact advanceTick_inv hs h

theorem reachable_inv (h : Reachable s) : s.Inv := by
  induction h with
  | reset image stream s h => exact construct_inv h
  | cycle s t _ h ih => exact stepKeepsInvariant s t ih h
  | timer s _ hf ih => exact timerStep_inv ih hf
  | keys mask s _ ih => exact setPressedKeys_inv mask ih

/-- Settles O51: the invariant by induction over how the state was reached, the rest from its bounds on `sp`. -/
theorem reachableStatesMeetInvariant : Obligations.ReachableStatesMeetInvariant := by
  intro s h
  have hinv := reachable_inv h
  obtain ⟨heven, hlow, hhigh⟩ := (stackOk_iff s).1 hinv.stack
  have hdepth : s.depth = (3840 - s.sp.toNat) / 2 := rfl
  exact ⟨hinv, heven, hlow, hhigh, by omega, by omega⟩

/-! ### Faults -/

/-- Settles O11: a latch is set only by fault entry, on the state at the start of the cycle; every other cycle leaves it. -/
theorem faultsArePrecise : Obligations.FaultsArePrecise := by
  intro s
  have hentry (r : Raise) (hf : s.fault = none) : (takeFault s r).fault = s.fault ∨ (s.fault = none ∧
      ∃ r', takeFault s r = { s with fault := some r' } ∧ r'.faultPc = s.pc ∧ (takeFault s r).pc = s.pc) :=
    .inr ⟨hf, _, rfl, rfl, rfl⟩
  rcases step_cases s with ⟨_, e⟩ | ⟨hf, _, e⟩ | ⟨_, _, _, _, _, e⟩ | ⟨hf, _, _, i, _, _, e⟩
  · exact ⟨_, e, .inl rfl⟩
  · exact ⟨_, e, hentry _ hf⟩
  · exact ⟨_, e, .inl rfl⟩
  · rcases exec_cases s i with ⟨r, h⟩ | ⟨t, h, hkeep⟩
    · exact ⟨_, e.trans h, hentry r hf⟩
    · exact ⟨t, e.trans h, .inl hkeep⟩

/-- An instruction that latches a fault did not complete, and the record is the one of its raise. -/
theorem record_of_exec {r : FaultRecord} (hf : s.fault = none) (h : exec i s = .next t) (hr : t.fault = some r) :
    ¬ Completes s i ∧ r = ⟨(raising s i).cause, s.pc, (raising s i).info⟩ := by
  rcases exec_inversion h with ⟨_, rfl⟩ | ⟨hc, rfl⟩
  · simp [hf] at hr
  · exact ⟨hc, (Option.some.inj hr).symm⟩

/-- Settles O12: the record is the one of the raise (`record_of_exec`); which check can fail, and on which operands, is read
off `Completes`. -/
theorem faultCausesAndDetails : Obligations.FaultCausesAndDetails := by
  intro i s t r hf hstack h hr
  obtain ⟨hc, rfl⟩ := record_of_exec hf h hr
  cases i with
  | ret =>
    have hsp := raising_ret hstack hc
    exact .inl ⟨rfl, rfl, hsp, (BitVec.toNat_setWidth_of_le (by decide)).trans hsp⟩
  | call nnn =>
    obtain ⟨hsp, hraise⟩ := raising_call nnn hstack hc
    rw [hraise]
    exact .inr (.inl ⟨nnn, rfl, rfl, hsp, (BitVec.toNat_setWidth_of_le (by decide)).trans hsp⟩)
  | skp x => exact .inr (.inr (.inl ⟨x, .inl rfl, rfl, Nat.lt_of_not_le hc, BitVec.toNat_setWidth_of_le (by decide)⟩))
  | sknp x => exact .inr (.inr (.inl ⟨x, .inr rfl, rfl, Nat.lt_of_not_le hc, BitVec.toNat_setWidth_of_le (by decide)⟩))
  | ldB x =>
    have hout : ¬ s.I.toNat + 3 ≤ 4096 := hc
    exact .inr (.inr (.inr ⟨rfl, indexFault_info_toNat s, .inl ⟨x, rfl, by omega⟩⟩))
  | storeRegs x =>
    have hout : ¬ s.I.toNat + (x.val + 1) ≤ 4096 := hc
    exact .inr (.inr (.inr ⟨rfl, indexFault_info_toNat s, .inr (.inl ⟨x, .inl rfl, by omega⟩)⟩))
  | loadRegs x =>
    have hout : ¬ s.I.toNat + (x.val + 1) ≤ 4096 := hc
    exact .inr (.inr (.inr ⟨rfl, indexFault_info_toNat s, .inr (.inl ⟨x, .inr rfl, by omega⟩)⟩))
  | drw x y n =>
    have hout : ¬ (n.toNat = 0 ∨ s.I.toNat + n.toNat ≤ 4096) := hc
    exact .inr (.inr (.inr ⟨rfl, indexFault_info_toNat s, .inr (.inr ⟨x, y, n, rfl, by omega, by omega⟩)⟩))
  | _ => exact absurd trivial hc

end Sys2Proof.Machine
end

section
/-! SUPPORT. Who writes and who reads which state (10_state.md R22, R38): the writers from what completion leaves, the
readers by moving an update of an unread item through completion, and the random source through its next byte (R133). -/

namespace Sys2Proof.Machine

variable {s t : State} {i : Instr}

/-! ### The writers of `V[15]` (R22) -/

/-- A register above the last one loaded keeps its value (R205). -/
theorem getV_setRegsFrom_above {bs : List Byte} {r : Reg} (h : bs.length ≤ r.val) :
    (s.setRegsFrom 0 bs).getV r = s.getV r := by
  rw [State.getV_setRegsFrom, if_pos (Nat.zero_le _), List.getD_eq_default _ _ (by omega)]

/-- Settles O52: a register write elsewhere leaves `V[15]`, and so does every instruction that writes no register. -/
theorem flagRegisterWriters : Obligations.FlagRegisterWriters := by
  intro i s t h hne
  rcases exec_inversion h with ⟨_, rfl⟩ | ⟨_, rfl⟩
  · cases i with
    | addReg x y | subReg x y | shr x y | subnReg x y | shl x y | drw x y n => simp
    | ldImm x _ | addImm x _ | ldReg x _ | orReg x _ | andReg x _ | xorReg x _ | rnd x _ | ldVxDT x =>
      obtain rfl : x = 15 := by
        by_contra hx
        exact hne (getV_advance_setV_ne s x _ 15 (Ne.symm hx))
      simp
    | ldVxK x =>
      obtain rfl : x = 15 := by
        by_contra hx
        exact hne (s.getV_awaitKey_ne x 15 (Ne.symm hx))
      simp
    | loadRegs x =>
      obtain rfl : x = 15 := by
        by_contra hx
        have hne15 : x.val ≠ 15 := fun e => hx (Fin.ext e)
        have hlt : x.val + 1 ≤ 15 := by omega
        exact hne (getV_setRegsFrom_above (by simpa using hlt))
      simp
    | _ => exact absurd (by simp [completion]) hne
  · exact absurd rfl hne

/-! ### The writers of memory and `pc` (R38, R68, R123) -/

/-- Outside the bytes written a byte reads as before. -/
theorem byteAt_writes_outside {a k : Nat} {bs : List Byte} (hm : t.mem = s.mem.writes a bs)
    (h : k < a ∨ a + bs.length ≤ k) : t.byteAt k = s.byteAt k := by
  rw [State.byteAt, hm]
  exact Memory.read_writes_outside _ _ _ _ h

/-- A byte of memory changes in the slot of a call or in the footprint of a store (R68). -/
theorem completion_byteAt (hc : Completes s i) {a : Nat} (h : (completion s i).byteAt a ≠ s.byteAt a) :
    (∃ nnn, i = .call nnn ∧ (a + 2 = s.sp.toNat ∨ a + 1 = s.sp.toNat)) ∨
    (∃ x, i = .ldB x ∧ s.I.toNat ≤ a ∧ a ≤ s.I.toNat + 2) ∨
    (∃ x : Reg, i = .storeRegs x ∧ s.I.toNat ≤ a ∧ a ≤ s.I.toNat + x.val) := by
  rcases completion_mem s i with hm | ⟨nnn, rfl⟩ | ⟨x, rfl⟩ | ⟨x, rfl⟩
  · exact absurd (congrArg (Memory.read · a) hm) h
  · obtain ⟨hlow, -⟩ : 3584 < s.sp.toNat ∧ s.sp.toNat ≤ 4096 := hc
    refine .inl ⟨nnn, rfl, ?_⟩
    by_contra hout
    exact h (byteAt_writes_outside rfl (by rw [bytesOfWord_length]; omega))
  · refine .inr (.inl ⟨x, rfl, ?_⟩)
    by_contra hout
    exact h (byteAt_writes_outside rfl (by rw [decimalDigits_length]; omega))
  · refine .inr (.inr ⟨x, rfl, ?_⟩)
    by_contra hout
    exact h (byteAt_writes_outside rfl (by rw [regsUpTo_length]; omega))

theorem completion_pc (s : State) (i : Instr) : (completion s i).pc = s.pc + 2 ∨
    (completion s i = s ∧ ∃ x, i = .ldVxK x) ∨ i = .ret ∨ (∃ nnn, i = .jp nnn ∨ i = .call nnn ∨ i = .jpV0 nnn) ∨
    (∃ x y nn, i = .seImm x nn ∨ i = .sneImm x nn ∨ i = .seReg x y ∨ i = .sneReg x y ∨ i = .skp x ∨ i = .sknp x) := by
  cases i with
  | ldVxK x =>
    by_cases h : s.keys = 0
    · exact .inr (.inl ⟨s.awaitKey_wait x h, x, rfl⟩)
    · exact .inl (by rw [completion, s.awaitKey_key x h]; rfl)
  | _ => simp [completion]

/-- Settles O53: fault entry writes the latch alone; what completion can write is said item by item. -/
theorem stateWriters : Obligations.StateWriters := by
  intro i s t h
  rcases exec_inversion h with ⟨hc, rfl⟩ | ⟨_, rfl⟩
  · refine ⟨(completion_sp s i).resolve_left, (completion_I s i).resolve_left, (completion_DT s i).resolve_left,
      (completion_ST s i).resolve_left, completion_keys s i, (completion_disp s i).resolve_left,
      (completion_source s i).resolve_left, fun a => completion_byteAt hc, fun hpc => ?_⟩
    rcases (completion_pc s i).resolve_left hpc with ⟨hs, hx⟩ | hrest
    · exact .inl ⟨by rw [hs], .inr hx⟩
    · exact .inr hrest
  · exact ⟨absurd rfl, absurd rfl, absurd rfl, absurd rfl, rfl, absurd rfl, absurd rfl, fun _ => absurd rfl,
      fun _ => .inl ⟨rfl, .inl (by simp)⟩⟩

/-! ### Updates of unread items (R38) -/

section
variable {f : State → State}

theorem skipIf_comm (hf : (f s).skip = f s.skip) (c : Bool) : (f s).skipIf c = f (s.skipIf c) := by
  cases c with
  | false => rfl
  | true => exact hf

theorem setRegsFrom_comm (hf : ∀ s x b, (f s).setV x b = f (s.setV x b)) (j : Nat) (bs : List Byte) :
    (f s).setRegsFrom j bs = f (s.setRegsFrom j bs) := by
  induction bs generalizing s j with
  | nil => rfl
  | cons b bs ih =>
    simp only [State.setRegsFrom]
    split
    · rw [hf, ih]
    · exact ih _

theorem awaitKey_comm (x : Reg) (hk : (f s).keys = s.keys) (hf : ∀ b, (f s).advance.setV x b = f (s.advance.setV x b)) :
    (f s).awaitKey x = f (s.awaitKey x) := by
  by_cases h : s.keys = 0
  · rw [State.awaitKey_wait _ _ h, State.awaitKey_wait _ _ (hk.trans h)]
  · rw [State.awaitKey_key _ _ h, State.awaitKey_key _ _ (by rwa [hk]), hk, hf]

/-- An update that no check, no raise and no completion of the instruction sees can be made before it or after it. -/
theorem exec_comm (hc : Completes (f s) i = Completes s i)
    (hr : takeFault (f s) (raising (f s) i) = f (takeFault s (raising s i)))
    (hf : completion (f s) i = f (completion s i)) (h : exec i s = .next t) : exec i (f s) = .next (f t) := by
  rcases exec_inversion h with ⟨hi, rfl⟩ | ⟨hi, rfl⟩
  · rw [exec_of_completes (hc ▸ hi), hf]
  · rw [exec_of_not_completes (hc ▸ hi), hr]

end

theorem completion_setKeys (k : Word) (h : ∀ x, i ≠ .skp x ∧ i ≠ .sknp x ∧ i ≠ .ldVxK x) :
    completion (s.setKeys k) i = (completion s i).setKeys k := by
  cases i with
  | skp x | sknp x | ldVxK x => simpa using h x
  | seImm | sneImm | seReg | sneReg => exact skipIf_comm (s := s.advance) (f := (·.setKeys k)) rfl _
  | loadRegs => exact setRegsFrom_comm (s := s.advance) (f := (·.setKeys k)) (fun _ _ _ => rfl) _ _
  | _ => rfl

theorem completion_setDT (b : Byte) (h : ∀ x, i ≠ .ldVxDT x ∧ i ≠ .ldDTVx x) :
    completion (s.setDT b) i = (completion s i).setDT b := by
  cases i with
  | ldVxDT x | ldDTVx x => simpa using h x
  | seImm | sneImm | seReg | sneReg | skp | sknp => exact skipIf_comm (s := s.advance) (f := (·.setDT b)) rfl _
  | ldVxK => exact awaitKey_comm (f := (·.setDT b)) _ rfl fun _ => rfl
  | loadRegs => exact setRegsFrom_comm (s := s.advance) (f := (·.setDT b)) (fun _ _ _ => rfl) _ _
  | _ => rfl

theorem completion_setST (b : Byte) (h : ∀ x, i ≠ .ldSTVx x) :
    completion (s.setST b) i = (completion s i).setST b := by
  cases i with
  | ldSTVx x => exact absurd rfl (h x)
  | seImm | sneImm | seReg | sneReg | skp | sknp => exact skipIf_comm (s := s.advance) (f := (·.setST b)) rfl _
  | ldVxK => exact awaitKey_comm (f := (·.setST b)) _ rfl fun _ => rfl
  | loadRegs => exact setRegsFrom_comm (s := s.advance) (f := (·.setST b)) (fun _ _ _ => rfl) _ _
  | _ => rfl

/-- The source replaced. -/
def State.setSource (s : State) (q : RandomSource) : State := { s with source := q }

theorem completion_setSource (q : RandomSource) (h : ∀ x nn, i ≠ .rnd x nn) :
    completion (s.setSource q) i = (completion s i).setSource q := by
  cases i with
  | rnd x nn => exact absurd rfl (h x nn)
  | seImm | sneImm | seReg | sneReg | skp | sknp => exact skipIf_comm (s := s.advance) (f := (·.setSource q)) rfl _
  | ldVxK => exact awaitKey_comm (f := (·.setSource q)) _ rfl fun _ => rfl
  | loadRegs => exact setRegsFrom_comm (s := s.advance) (f := (·.setSource q)) (fun _ _ _ => rfl) _ _
  | _ => rfl

theorem exec_setSource (q : RandomSource) (hi : ∀ x nn, i ≠ .rnd x nn) (h : exec i s = .next t) :
    exec i (s.setSource q) = .next (t.setSource q) :=
  exec_comm (f := (·.setSource q)) rfl rfl (completion_setSource q hi) h

/-- Settles O54: completion commutes with an update of an item that the instruction does not read, checks and raises see
none of the four, and `FX15` and `FX18` overwrite their timer. -/
theorem unreadStateDoesNotMatter : Obligations.UnreadStateDoesNotMatter := by
  intro i s t h
  refine ⟨fun k hi => ?keys, fun b hi => ?dt, ?dtWritten, fun b hi => ?st, ?stWritten, fun q hi => ?source⟩
  case keys => exact exec_comm (f := (·.setKeys k)) rfl rfl (completion_setKeys k hi) h
  case dt => exact exec_comm (f := (·.setDT b)) rfl rfl (completion_setDT b hi) h
  case dtWritten => rintro b x rfl; exact h
  case st => exact exec_comm (f := (·.setST b)) rfl rfl (completion_setST b hi) h
  case stWritten => rintro b x rfl; exact h
  case source => exact exec_setSource q hi h

/-! ### The random source (R133) -/

/-- The source is seen through the byte it supplies next. -/
theorem exec_setSource_toEngine {q : RandomSource} (hq : (s.setSource q).nextRandom = s.nextRandom)
    (h : exec i s = .next t) : ∃ u, exec i (s.setSource q) = .next u ∧ u.toEngine = t.toEngine := by
  by_cases hi : ∃ x nn, i = .rnd x nn
  · obtain ⟨x, nn, rfl⟩ := hi
    rw [exec_of_completes (i := .rnd x nn) trivial] at h
    cases h
    refine ⟨_, exec_of_completes (i := .rnd x nn) trivial, ?_⟩
    simp only [completion, hq]
    rfl
  · simp only [not_exists] at hi
    exact ⟨_, exec_setSource q hi h, rfl⟩

/-- An instruction leaves the source or draws one byte of its stream. -/
theorem exec_source (h : exec i s = .next t) :
    t.source = s.source ∨ t.source = { s.source with drawn := s.source.drawn + 1 } := by
  rcases exec_inversion h with ⟨_, rfl⟩ | ⟨_, rfl⟩
  · rcases completion_source s i with hs | ⟨x, nn, rfl⟩
    · exact .inl hs
    · exact .inr rfl
  · exact .inl rfl

/-- Settles O55: only the instruction of a cycle can see the source, and the fetch and the latch are the same for every
source. -/
theorem randomSourceSeenThroughItsByte : Obligations.RandomSourceSeenThroughItsByte := by
  intro s t q h
  rcases step_cases s with ⟨hf, e⟩ | ⟨hf, hpc, e⟩ | ⟨hf, _, w, hw, hi, e⟩ | ⟨hf, _, w, i, hw, hi, e⟩ <;> rw [e] at h
  · cases h
    exact ⟨fun _ => ⟨_, step_faulted (s.setSource q) hf, rfl⟩, rfl, .inl rfl⟩
  · cases h
    exact ⟨fun _ => ⟨_, step_of_fetch_outside (s := s.setSource q) hf hpc, rfl⟩, rfl, .inl rfl⟩
  · cases h
    exact ⟨fun _ => ⟨_, step_of_unrecognized (s := s.setSource q) hf hw (decodeWord_of_none hi), rfl⟩, rfl, .inl rfl⟩
  · refine ⟨fun hq => ?_, ?_⟩
    · obtain ⟨u, hu, hengine⟩ := exec_setSource_toEngine hq h
      exact ⟨u, (step_of_fetched (s := s.setSource q) hf hw (decodeWord_eq_ok_iff.2 hi)).trans hu, hengine⟩
    · rcases exec_source h with hs | hs <;> simp [hs]

end Sys2Proof.Machine
end

section
/-! SUPPORT. The call stack (41_control_flow.md R151, R153; 60_exceptions.md R269, R270): what a call leaves in its slot and
what a return takes from there. -/

namespace Sys2Proof.Machine

variable {s t : State}

/-! ### A word in memory (R60, R65) -/

theorem read_writes_bytesOfWord_high (m : Memory) (a : Nat) (w : Word) :
    (m.writes a (bytesOfWord w)).read a = highByte w := by
  simp [Memory.read_writes, bytesOfWord]

theorem read_writes_bytesOfWord_low (m : Memory) (a : Nat) (w : Word) :
    (m.writes a (bytesOfWord w)).read (a + 1) = lowByte w := by
  simp [Memory.read_writes, bytesOfWord]

/-! ### The slot of a call -/

theorem completion_call_high (s : State) (nnn : Literal12) :
    (completion s (.call nnn)).byteAt (s.sp.toNat - 2) = highByte (s.pc + 2) := read_writes_bytesOfWord_high _ _ _

theorem completion_call_low (nnn : Literal12) (h : 3584 < s.sp.toNat) :
    (completion s (.call nnn)).byteAt (s.sp.toNat - 1) = lowByte (s.pc + 2) := by
  have hslot : s.sp.toNat - 1 = (s.sp.toNat - 2) + 1 := by omega
  rw [hslot]
  exact read_writes_bytesOfWord_low _ _ _

theorem completion_call_other (nnn : Literal12) (h : 3584 < s.sp.toNat) {a : Nat} (hhigh : a ≠ s.sp.toNat - 2)
    (hlow : a ≠ s.sp.toNat - 1) : (completion s (.call nnn)).byteAt a = s.byteAt a :=
  byteAt_writes_outside rfl (by rw [bytesOfWord_length]; omega)

/-! ### The statements -/

/-- Settles O16: the word written to the slot is the advanced `pc`. -/
theorem callPushesAndJumps : Obligations.CallPushesAndJumps := by
  intro s nnn hlow hhigh
  exact ⟨completion s (.call nnn), literalWord nnn, s.sp - 2, exec_of_completes (i := .call nnn) ⟨hlow, hhigh⟩, rfl,
    literalWord_toNat nnn, call_slot s hlow, completion_call_high s nnn, completion_call_low nnn hlow,
    fun _ => completion_call_other nnn hlow⟩

/-- Settles O17: the word popped is the one at `sp`. -/
theorem returnPopsPc : Obligations.ReturnPopsPc := by
  intro s hsp
  exact ⟨_, s.sp + 2, wordOfBytes_toNat _ _, return_slot hsp, exec_ret_ok s hsp⟩

/-- Settles O18: the three raises, each of which sets the latch alone. -/
theorem stackBoundFaults : Obligations.StackBoundFaults :=
  ⟨fun s nnn h => exec_call_overflow s nnn h, fun s h => exec_ret_fault s h, fun s nnn h => exec_call_outside s nnn h⟩

/-- Settles O19: the two bytes of the slot are put together to the word the call took apart. -/
theorem returnUndoesCall : Obligations.ReturnUndoesCall := by
  intro s t u nnn hstack hlow hcall husp hhigh hlowByte
  obtain ⟨-, -, hhighest⟩ := (stackOk_iff s).1 hstack
  rw [exec_of_completes (i := .call nnn) ⟨hlow, by omega⟩] at hcall
  cases hcall
  have husp : u.sp = s.sp - 2 := husp
  have hslot : u.sp.toNat = s.sp.toNat - 2 := by rw [husp, call_slot s hlow]
  have hnext : u.sp.toNat + 1 = s.sp.toNat - 1 := by omega
  rw [hslot, completion_call_high] at hhigh
  rw [hnext, completion_call_low nnn hlow] at hlowByte
  refine ⟨_, exec_ret_ok u (by omega), ?_, ?_⟩
  · show wordOfBytes (u.byteAt u.sp.toNat) (u.byteAt (u.sp.toNat + 1)) = s.pc + 2
    rw [hnext, hslot, hhigh, hlowByte, wordOfBytes_high_low]
  · show u.sp + 2 = s.sp
    rw [husp]
    exact BitVec.sub_add_cancel s.sp 2

end Sys2Proof.Machine
end

section
/-! SUPPORT. The arithmetic with a flag, the random byte and the timer loads (42_alu.md R176 to R182; 45_keys_timers.md R244,
R245). A flag is written after the result, or before it by the shifts, which is seen only when `X` is 15 (R11). -/

namespace Sys2Proof.Machine

variable (s : State)

/-! ### The instructions as equations -/

theorem exec_addReg (x y : Reg) : exec (.addReg x y) s =
    .next ((s.advance.setV x (s.getV x + s.getV y)).setFlag (carryOut (s.getV x) (s.getV y))) := rfl

theorem exec_subReg (x y : Reg) : exec (.subReg x y) s =
    .next ((s.advance.setV x (s.getV x - s.getV y)).setFlag (notBorrow (s.getV x) (s.getV y))) := rfl

theorem exec_subnReg (x y : Reg) : exec (.subnReg x y) s =
    .next ((s.advance.setV x (s.getV y - s.getV x)).setFlag (notBorrow (s.getV y) (s.getV x))) := rfl

theorem exec_shr (x y : Reg) : exec (.shr x y) s = .next ((s.advance.setFlag (bitOutRight (s.getV x))).setV x
    ((s.advance.setFlag (bitOutRight (s.getV x))).getV x >>> 1)) := rfl

theorem exec_shl (x y : Reg) : exec (.shl x y) s = .next ((s.advance.setFlag (bitOutLeft (s.getV x))).setV x
    ((s.advance.setFlag (bitOutLeft (s.getV x))).getV x <<< 1)) := rfl

theorem exec_rnd (x : Reg) (nn : Byte) :
    exec (.rnd x nn) s = .next ((s.advance.setV x (s.nextRandom &&& nn)).countDraw) := rfl

theorem exec_ldDTVx (x : Reg) : exec (.ldDTVx x) s = .next { s with pc := s.pc + 2, DT := s.getV x } := rfl

theorem exec_ldSTVx (x : Reg) : exec (.ldSTVx x) s = .next { s with pc := s.pc + 2, ST := s.getV x } := rfl

/-! ### A result and then its flag -/

section
variable (x : Reg) (b : Byte) (c : Bool)

/-- Outside the registers only `pc` differs, by 2 (R123). -/
theorem advance_setV_setFlag :
    (s.advance.setV x b).setFlag c = { s with pc := s.pc + 2, V := ((s.advance.setV x b).setFlag c).V } := rfl

theorem getV_setV_setFlag_result (h : x ≠ 15) : ((s.advance.setV x b).setFlag c).getV x = b := by simp [h]

theorem getV_setV_setFlag_ne (r : Reg) (hx : r ≠ x) (h15 : r ≠ 15) :
    ((s.advance.setV x b).setFlag c).getV r = s.getV r := by simp [hx, h15]

/-! ### A flag and then a result -/

theorem advance_setFlag_setV :
    (s.advance.setFlag c).setV x b = { s with pc := s.pc + 2, V := ((s.advance.setFlag c).setV x b).V } := rfl

theorem getV_setFlag_setV_flag (h : x ≠ 15) : ((s.advance.setFlag c).setV x b).getV 15 = flagByte c := by
  simp [Ne.symm h]

theorem getV_setFlag_setV_ne (r : Reg) (hx : r ≠ x) (h15 : r ≠ 15) :
    ((s.advance.setFlag c).setV x b).getV r = s.getV r := by simp [hx, h15]

end

/-! ### Flags and results as numbers -/

theorem flagByte_toNat (c : Bool) : (flagByte c).toNat = c.toNat := by cases c <;> rfl

theorem flagByte_carryOut_toNat (a b : Byte) :
    (flagByte (carryOut a b)).toNat = if 255 < a.toNat + b.toNat then 1 else 0 := by
  rw [flagByte_toNat, carryOut]
  by_cases h : 255 < a.toNat + b.toNat <;> simp [h]

theorem flagByte_notBorrow_toNat (a b : Byte) :
    (flagByte (notBorrow a b)).toNat = if a.toNat < b.toNat then 0 else 1 := by
  rw [flagByte_toNat, notBorrow]
  by_cases h : a.toNat < b.toNat <;> simp [h]

theorem flagByte_bitOutRight_toNat (a : Byte) : (flagByte (bitOutRight a)).toNat = a.toNat % 2 := by
  rw [flagByte_toNat, bitOutRight, ← BitVec.testBit_toNat, Nat.toNat_testBit, Nat.pow_zero, Nat.div_one]

theorem flagByte_bitOutLeft_toNat (a : Byte) : (flagByte (bitOutLeft a)).toNat = a.toNat / 128 := by
  have := a.isLt
  rw [flagByte_toNat, bitOutLeft, ← BitVec.testBit_toNat, Nat.toNat_testBit]
  omega

theorem byte_sub_toNat (a b : Byte) : (a - b).toNat = (a.toNat + 256 - b.toNat) % 256 := by
  have := b.isLt
  rw [BitVec.toNat_sub]; congr 1; omega

theorem byte_shiftRight_one_toNat (a : Byte) : (a >>> 1).toNat = a.toNat / 2 := by
  rw [BitVec.toNat_ushiftRight, Nat.shiftRight_eq_div_pow]

theorem byte_shiftLeft_one_toNat (a : Byte) : (a <<< 1).toNat = a.toNat * 2 % 256 := by
  rw [BitVec.toNat_shiftLeft, Nat.shiftLeft_eq]

/-! ### The statements -/

/-- Settles O24: the sum, then the carry. -/
theorem addWritesSumAndCarry : Obligations.AddWritesSumAndCarry := by
  intro s x y
  refine ⟨_, exec_addReg s x y, advance_setV_setFlag .., ?_, fun hx => ?_, getV_setV_setFlag_ne s x _ _⟩
  · rw [State.getV_setFlag_self, flagByte_carryOut_toNat]
  · rw [getV_setV_setFlag_result _ _ _ _ hx]; exact BitVec.toNat_add _ _

/-- Settles O25: the difference, then the inverse of the borrow; the two instructions differ in the order of the operands. -/
theorem subtractWritesDifferenceAndNotBorrow : Obligations.SubtractWritesDifferenceAndNotBorrow := by
  intro s x y
  refine ⟨_, _,
    ⟨exec_subReg s x y, advance_setV_setFlag .., ?subFlag, fun hx => ?sub, getV_setV_setFlag_ne s x _ _⟩,
    ⟨exec_subnReg s x y, advance_setV_setFlag .., ?subnFlag, fun hx => ?subn, getV_setV_setFlag_ne s x _ _⟩⟩
  case subFlag | subnFlag => rw [State.getV_setFlag_self, flagByte_notBorrow_toNat]
  case sub | subn => rw [getV_setV_setFlag_result _ _ _ _ hx, byte_sub_toNat]

/-- Settles O26: the bit shifted out, then the shift of the register, which for `X = 15` is the bit itself. -/
theorem shiftsWriteBitOut : Obligations.ShiftsWriteBitOut := by
  intro s x y
  refine ⟨_, _,
    ⟨exec_shr s x y, advance_setFlag_setV .., fun hx => ⟨?shr, ?shrFlag⟩, ?shrOfFlag, getV_setFlag_setV_ne s x _ _⟩,
    ⟨exec_shl s x y, advance_setFlag_setV .., fun hx => ⟨?shl, ?shlFlag⟩, ?shlOfFlag, getV_setFlag_setV_ne s x _ _⟩⟩
  case shr =>
    rw [State.getV_setV_self, State.getV_setFlag_ne _ _ _ hx, byte_shiftRight_one_toNat]; rfl
  case shrFlag => rw [getV_setFlag_setV_flag _ _ _ _ hx, flagByte_bitOutRight_toNat]
  case shrOfFlag =>
    rintro rfl
    rw [State.getV_setV_self, State.getV_setFlag_self, byte_shiftRight_one_toNat, flagByte_bitOutRight_toNat]
    omega
  case shl =>
    rw [State.getV_setV_self, State.getV_setFlag_ne _ _ _ hx, byte_shiftLeft_one_toNat]; rfl
  case shlFlag => rw [getV_setFlag_setV_flag _ _ _ _ hx, flagByte_bitOutLeft_toNat]
  case shlOfFlag =>
    rintro rfl
    have hb := s.getV_toNat_lt 15
    rw [State.getV_setV_self, State.getV_setFlag_self, byte_shiftLeft_one_toNat, flagByte_bitOutLeft_toNat]
    omega

/-- Settles O27: the byte written is the next one of the stream under the mask. -/
theorem randomByteUnderMask : Obligations.RandomByteUnderMask := by
  intro s x nn
  have hx : ((s.advance.setV x (s.nextRandom &&& nn)).countDraw).getV x = s.nextRandom &&& nn := State.getV_setV_self _ _ _
  refine ⟨_, exec_rnd s x nn, rfl, hx, fun j hj => ?_, getV_advance_setV_ne s x _⟩
  rw [hx, BitVec.getLsbD_and, hj, Bool.and_false]

/-- Settles O42: each is the advance and one write of a timer. -/
theorem timerLoads : Obligations.TimerLoads := fun s x => ⟨exec_ldDTVx s x, exec_ldSTVx s x⟩

end Sys2Proof.Machine
end

section
/-! SUPPORT. The stores and loads through `I` (43_index_memory.md R203 to R206; 60_exceptions.md R268; 20_memory.md R78). -/

namespace Sys2Proof.Machine

variable {s : State}

/-- Inside the bytes written, an address reads as the byte at its place in the list. -/
theorem read_writes_inside (m : Memory) (a j : Nat) (bs : List Byte) :
    (m.writes a bs).read (a + j) = bs.getD j (m.read (a + j)) := by
  rw [Memory.read_writes, if_pos (Nat.le_add_right a j), Nat.add_sub_cancel_left]

/-- Outside memory only `pc` differs, by 2 (R123). -/
theorem advance_setMem (s : State) (m : Memory) : s.advance.setMem m = { s with pc := s.pc + 2, mem := m } := rfl

/-! ### `FX33` -/

/-- A number below 256 is the number of its byte. -/
theorem ofNat8_toNat {n : Nat} (h : n < 256) : (BitVec.ofNat 8 n).toNat = n := by
  rw [BitVec.toNat_ofNat]; exact Nat.mod_eq_of_lt h

/-- Settles O29: the three digits in the list of bytes written. -/
theorem decimalDigitsStored : Obligations.DecimalDigitsStored := by
  intro s x h
  have hbyte := s.getV_toNat_lt x
  have hin (j : Nat) := read_writes_inside s.mem s.I.toNat j (decimalDigits (s.getV x))
  refine ⟨_, exec_ldB_ok s x (by omega), advance_setMem .., ?hundreds, ?tens, ?ones, fun a ha => ?_⟩
  case hundreds => exact (congrArg BitVec.toNat (hin 0)).trans (ofNat8_toNat (by omega))
  case tens => exact (congrArg BitVec.toNat (hin 1)).trans (ofNat8_toNat (by omega))
  case ones => exact (congrArg BitVec.toNat (hin 2)).trans (ofNat8_toNat (by omega))
  exact byteAt_writes_outside rfl (by rw [decimalDigits_length]; omega)

/-! ### `FX55` and `FX65` -/

/-- The byte `r` of the list stored is `V[r]` (R204). -/
theorem byteAt_storeRegs {x r : Reg} (h : r ≤ x) :
    (s.advance.setMem (s.mem.writes s.I.toNat (s.regsUpTo x))).byteAt (s.I.toNat + r.val) = s.getV r :=
  (read_writes_inside ..).trans (regsUpTo_getD s x r _ h)

/-- Settles O30: the register list is stored from `I` up. -/
theorem registersStored : Obligations.RegistersStored := by
  intro s x h
  refine ⟨_, exec_storeRegs_ok s x (by omega), advance_setMem .., fun r => byteAt_storeRegs, fun a ha => ?_⟩
  exact byteAt_writes_outside rfl (by rw [regsUpTo_length]; omega)

/-- A list of register writes is a write of the register file. -/
theorem setRegsFrom_frame (s : State) (j : Nat) (bs : List Byte) :
    s.setRegsFrom j bs = { s with V := (s.setRegsFrom j bs).V } := by
  induction bs generalizing s j with
  | nil => rfl
  | cons b bs ih =>
    simp only [State.setRegsFrom]
    split
    · exact ih (s.setV _ b) (j + 1)
    · exact ih s (j + 1)

/-- Settles O31: the bytes read from `I` up go to `V[0]` up. -/
theorem registersLoaded : Obligations.RegistersLoaded := by
  intro s x h
  refine ⟨_, exec_loadRegs_ok s x (by omega), setRegsFrom_frame .., fun r hr => ?_, fun r hr => ?_⟩
  · have hr : r.val < x.val + 1 := Nat.lt_succ_of_le hr
    rw [State.getV_setRegsFrom, if_pos (Nat.zero_le _), Nat.sub_zero, Memory.reads_getD _ _ _ _ _ hr]
    rfl
  · exact getV_setRegsFrom_above (by rw [Memory.reads_length]; exact hr)

/-! ### A footprint outside memory -/

/-- Settles O32: the four raise the same fault, `indexFault`, and fault entry sets the latch alone. -/
theorem footprintFaults : Obligations.FootprintFaults := by
  rintro s t x y n rfl
  exact ⟨fun h => exec_ldB_fault s x (by omega),
    fun h => ⟨exec_storeRegs_fault s x (by omega), exec_loadRegs_fault s x (by omega)⟩,
    fun hn h => exec_drw_fault s x y n hn (by omega)⟩

/-! ### A store over the next instruction -/

/-- Settles O33: the two bytes at the new `pc` are the first two registers stored. -/
theorem storedBytesAreFetched : Obligations.StoredBytesAreFetched := by
  intro s t x hx hI hpc h
  rw [exec_storeRegs_ok s x (by omega)] at h
  cases h
  have hpcI : (s.advance.setMem (s.mem.writes s.I.toNat (s.regsUpTo x))).pc = s.I := hpc.symm
  have h0 := byteAt_storeRegs (s := s) (x := x) (r := 0) (Nat.zero_le _)
  have h1 := byteAt_storeRegs (s := s) (x := x) (r := 1) hx
  refine ⟨hpcI, ?_⟩
  rw [fetch_ok _ (by rw [hpcI]; omega), hpcI]
  exact congrArg Except.ok (congrArg₂ wordOfBytes h0 h1)

end Sys2Proof.Machine
end

section
/-! SUPPORT. The key instructions (45_keys_timers.md R240 to R242; 60_exceptions.md R273). -/

namespace Sys2Proof.Machine

/-- Settles O38: the skip is under the bit of the key, or under its negation. -/
theorem keySkips : Obligations.KeySkips := by
  intro s x h
  rw [exec_skp_ok s x h, exec_sknp_ok s x h, advance_skipIf, advance_skipIf]
  refine ⟨rfl, ?_⟩
  cases s.keys.getLsbD (s.getV x).toNat <;> rfl

/-- Settles O39: both raise, and fault entry sets the latch alone. -/
theorem keyNumberAboveFifteenFaults : Obligations.KeyNumberAboveFifteenFaults :=
  fun s x h => ⟨exec_skp_fault s x h, exec_sknp_fault s x h⟩

/-- Settles O40: with a key down the byte written is the number of the least set bit of `keys`. -/
theorem waitForKey : Obligations.WaitForKey := by
  intro s x
  constructor
  · intro h
    rw [exec_ldVxK, s.awaitKey_wait x h]
  · intro h
    obtain ⟨hlt, hset, hleast⟩ := lowestSetBit_spec s.keys h
    have hx : ((s.advance.setV x (BitVec.ofNat 8 (lowestSetBit s.keys))).getV x).toNat = lowestSetBit s.keys := by
      rw [State.getV_setV_self, ofNat8_toNat (by omega)]
    refine ⟨_, (exec_ldVxK s x).trans (congrArg _ (s.awaitKey_key x h)), advance_setV .., ?_, ?_, ?_,
      getV_advance_setV_ne s x _⟩ <;> rw [hx]
    · omega
    · exact hset
    · exact hleast

end Sys2Proof.Machine
end

section
/-! SUPPORT. Reset (10_state.md R37; 70_reset_and_hazards.md R300 to R302). -/

namespace Sys2Proof.Machine

/-! ### Memory after reset -/

theorem unlisted_font {a : Nat} (h : a < 80) : Memory.unlisted a = Config.font.getD a 0 := by
  simp [Memory.unlisted, h, Config.memFill]

theorem unlisted_fill {a : Nat} (h : 80 ≤ a) : Memory.unlisted a = Config.memFill := by
  simp [Memory.unlisted, Nat.not_lt.2 h]

/-- Below the program memory is as it is unlisted. -/
theorem construct_mem_read_below (image : List Byte) {a : Nat} (h : a < 512) :
    (Engine.reset.mem.writes 512 image).read a = Memory.unlisted a := by
  rw [construct_mem_read, if_neg (by omega)]

theorem construct_mem_read_program {image : List Byte} {j : Nat} (h : j < image.length) :
    (Engine.reset.mem.writes 512 image).read (512 + j) = image[j] := by
  rw [read_writes_inside, List.getD_eq_getElem _ _ h]

theorem construct_mem_read_above {image : List Byte} {a : Nat} (h : 512 + image.length ≤ a) :
    (Engine.reset.mem.writes 512 image).read a = Config.memFill := by
  rw [construct_mem_read, if_pos (by omega), List.getD_eq_default _ _ (by omega), unlisted_fill (by omega)]

/-! ### The engine after reset -/

/-- An accepted reset leaves an engine in which the stream of the source does not occur (R302). -/
theorem construct_toEngine {image : List Byte} {stream : Nat} {s : State} (h : construct image stream = .next s) :
    s.toEngine = { Engine.reset with mem := Engine.reset.mem.writes 512 image } := by
  by_cases hlen : image.length ≤ 3584
  · rw [construct_ok image stream hlen] at h; cases h; rfl
  · rw [construct_refused image stream (by omega)] at h; cases h

/-- Settles O47: memory is the image written at 512 over the unlisted one, everything else is `Engine.reset`, and the stream
goes to the source alone. -/
theorem resetState : Obligations.ResetState := by
  refine ⟨fun image stream hlen => ⟨_, construct_ok image stream hlen, ?font, ?fill, ?program, ?above, ?rest⟩,
    fun image stream hlen => construct_refused image stream hlen, fun image k l s t hs ht => ?engine, rfl⟩
  case font => exact fun a ha => (construct_mem_read_below image (by omega)).trans (unlisted_font ha)
  case fill => exact fun a ha hlt => (construct_mem_read_below image hlt).trans (unlisted_fill ha)
  case program => exact fun j hj => construct_mem_read_program hj
  case above => exact fun a ha => construct_mem_read_above ha
  case rest =>
    exact ⟨State.reset_getV, rfl, rfl, rfl, rfl, rfl, rfl, fun y hy => Vector.getElem_replicate hy, rfl⟩
  case engine => rw [construct_toEngine hs, construct_toEngine ht]

end Sys2Proof.Machine
end

section
/-! SUPPORT. Cycles and ticks (40_cycle_and_tick.md R126, R127; 60_exceptions.md R271, R272): what a latched fault, a wait and
a run without faults make of them. -/

namespace Sys2Proof.Machine

variable {s t u : State}

/-! ### A run of cycles, by its first -/

theorem runCycles_succ_of_faulted {n : Nat} (h : step s = .next t) (hf : t.fault.isSome) :
    runCycles (n + 1) s = .next t := by
  simp only [runCycles, h, hf, if_true]

theorem runCycles_succ_of_unfaulted {n : Nat} (h : step s = .next t) (hf : t.fault = none) :
    runCycles (n + 1) s = runCycles n t := by
  simp [runCycles, h, hf]

/-- A state that a step leaves as it is, is left by any number of cycles. -/
theorem runCycles_of_fixed (h : step s = .next s) (n : Nat) : runCycles n s = .next s := by
  induction n with
  | zero => rfl
  | succ n ih =>
    cases hf : s.fault with
    | some r => exact runCycles_succ_of_faulted h (by simp [hf])
    | none => rw [runCycles_succ_of_unfaulted h hf, ih]

/-- Once a fault is latched the rest of the cycles change nothing (R126). -/
theorem runCycles_mono_of_faulted {k n : Nat} (hkn : k ≤ n) (h : runCycles k s = .next u) (hf : u.fault.isSome) :
    runCycles n s = .next u := by
  induction k generalizing s n with
  | zero =>
    cases h
    exact runCycles_of_fixed (step_faulted u hf) n
  | succ k ih =>
    obtain ⟨m, rfl⟩ : ∃ m, n = m + 1 := ⟨n - 1, by omega⟩
    obtain ⟨v, hv⟩ := step_next s
    cases hvf : v.fault with
    | some r =>
      have hvf : v.fault.isSome := by simp [hvf]
      rw [runCycles_succ_of_faulted hv hvf] at h ⊢
      exact h
    | none =>
      rw [runCycles_succ_of_unfaulted hv hvf] at h ⊢
      exact ih (Nat.le_of_succ_le_succ hkn) h

/-! ### A tick, by its cycles -/

theorem advanceTick_of_faulted (n : Nat) (hf : s.fault.isSome) : advanceTick n s = .next s := by
  simp only [advanceTick, hf, if_true]

theorem advanceTick_of_cycles_unfaulted {n : Nat} (hs : s.fault = none) (h : runCycles n s = .next u)
    (hu : u.fault = none) : advanceTick n s = .next (timerStep u) := by
  simp [advanceTick, hs, h, hu]

/-- A fault in the cycles skips the timer step; with the fault latched before them there are none (R126, R271). -/
theorem advanceTick_of_cycles_faulted {n : Nat} (h : runCycles n s = .next u) (hu : u.fault.isSome) :
    advanceTick n s = .next u := by
  cases hs : s.fault with
  | some r =>
    have hs : s.fault.isSome := by simp [hs]
    rw [runCycles_of_fixed (step_faulted s hs)] at h
    cases h
    exact advanceTick_of_faulted n hs
  | none => simp [advanceTick, hs, h, hu]

/-! ### The statements -/

/-- Settles O10: the step of a faulted machine is the identity, and so are the cycles and the tick. -/
theorem faultedMachineStandsStill : Obligations.FaultedMachineStandsStill := by
  intro s n hf
  have hf : s.fault.isSome := Option.isSome_iff_ne_none.2 hf
  have hstep := step_faulted s hf
  refine ⟨hstep, runCycles_of_fixed hstep n, advanceTick_of_faulted n hf, by simp [tickDiagnostics, hf], fun _ => rfl,
    fun image stream t h => ?_⟩
  exact congrArg Engine.fault (construct_toEngine h)

/-- Settles O41: a waiting `FX0A` is a step that leaves the state, so the tick is its timer step. -/
theorem keyWaitSpansTicks : Obligations.KeyWaitSpansTicks := by
  intro s x n hf hk hpc hi
  have hstep : step s = .next s := by
    rw [step_of_fetched hf (fetch_ok s hpc) hi, exec_ldVxK, s.awaitKey_wait x hk]
  have hcycles := runCycles_of_fixed hstep n
  exact ⟨hcycles, advanceTick_of_cycles_unfaulted hf hcycles hf⟩

/-- Settles O43: the tick is the cycles and one timer step, a saturating decrement of both timers. -/
theorem tickCountsDownOnce : Obligations.TickCountsDownOnce := by
  intro s u n hs h hu
  exact ⟨timerStep u, advanceTick_of_cycles_unfaulted hs h hu, rfl, countDown_toNat u.DT, countDown_toNat u.ST⟩

/-- Settles O44: the cycles after the fault change nothing, and the tick has no timer step. -/
theorem faultEndsTick : Obligations.FaultEndsTick := by
  intro s u k n hkn h hf
  have hf : u.fault.isSome := Option.isSome_iff_ne_none.2 hf
  have hcycles := runCycles_mono_of_faulted hkn h hf
  exact ⟨hcycles, advanceTick_of_cycles_faulted hcycles hf⟩

/-! ### The delay timer over ticks (R272) -/

section
variable {P : State → Prop} (hstep : ∀ u v, P u → step u = .next v → P v ∧ v.fault = none ∧ v.DT = u.DT)
  (htimer : ∀ u, P u → P (timerStep u))
include hstep

/-- Cycles inside the set latch no fault and leave `DT`. -/
theorem runCycles_keeps_DT (n : Nat) (hP : P s) (hf : s.fault = none) (h : runCycles n s = .next t) :
    P t ∧ t.fault = none ∧ t.DT = s.DT := by
  refine runCycles_induction (P := fun u => P u ∧ u.fault = none ∧ u.DT = s.DT) ?_ n s t ⟨hP, hf, rfl⟩ h
  rintro u v ⟨hu, _, hDT⟩ huv
  obtain ⟨hv, hvf, hvDT⟩ := hstep u v hu huv
  exact ⟨hv, hvf, hvDT.trans hDT⟩

include htimer

/-- A tick inside the set is one count of `DT`, whatever its cycle count. -/
theorem advanceTick_counts_DT (n : Nat) (hP : P s) (hf : s.fault = none) :
    ∃ t, advanceTick n s = .next t ∧ P t ∧ t.fault = none ∧ t.DT.toNat = s.DT.toNat - 1 := by
  obtain ⟨u, hu⟩ := runCycles_next n s
  obtain ⟨hPu, huf, hDT⟩ := runCycles_keeps_DT hstep n hP hf hu
  refine ⟨_, advanceTick_of_cycles_unfaulted hf hu huf, htimer u hPu, huf, ?_⟩
  rw [timerStep_DT, countDown_toNat, hDT]

end

/-- Settles O45: by induction over the ticks, each of which is one count of `DT`. -/
theorem delayTimerAfterTicks : Obligations.DelayTimerAfterTicks := by
  intro P s counts hP hf hstep htimer
  induction counts generalizing s with
  | nil => exact ⟨s, rfl, hP, rfl⟩
  | cons n ns ih =>
    obtain ⟨u, hu, hPu, huf, hDT⟩ := advanceTick_counts_DT hstep htimer n hP hf
    obtain ⟨t, ht, hPt, htDT⟩ := ih u hPu huf
    refine ⟨t, by simp only [runTicks, hu, ht], hPt, ?_⟩
    rw [htDT, hDT, List.length_cons]
    omega

end Sys2Proof.Machine
end

section
/-! SUPPORT. Drawing in pixel terms (44_display.md R221 to R223): a draw exclusive-ORs the bits of the sprite into the screen,
so a second draw of the same sprite takes them off again. -/

namespace Sys2Proof.Machine

variable {s : State}

/-! ### The sprite a `DXYN` draws -/

/-- The bit the sprite of a `DXYN` puts on a pixel: start position wrapped, bytes from `I` up (R221). -/
def drawnBit (s : State) (x y : Reg) (n : Nibble) (p q : Nat) : Bool :=
  spriteBit (s.mem.reads s.I.toNat n.toNat) ((s.getV x).toNat % 64) ((s.getV y).toNat % 32) p q

theorem drawnBit_inside (x y : Reg) (n : Nibble) {i j : Nat} (hi : i < n.toNat) (hj : j < 8) :
    drawnBit s x y n ((s.getV x).toNat % 64 + j) ((s.getV y).toNat % 32 + i) =
      (s.byteAt (s.I.toNat + i)).getLsbD (7 - j) := by
  rw [drawnBit, spriteBit, Memory.reads_length, decide_eq_true (by omega), Bool.true_and, Nat.add_sub_cancel_left,
    Nat.add_sub_cancel_left, Memory.reads_getD _ _ _ _ _ hi]
  rfl

theorem drawnBit_outside (x y : Reg) (n : Nibble) {p q : Nat}
    (h : p < (s.getV x).toNat % 64 ∨ (s.getV x).toNat % 64 + 8 ≤ p ∨ q < (s.getV y).toNat % 32 ∨
      (s.getV y).toNat % 32 + n.toNat ≤ q) : drawnBit s x y n p q = false := by
  rw [drawnBit, spriteBit, Memory.reads_length, decide_eq_false (by omega), Bool.false_and]

/-! ### The draw -/

/-- Every pixel of the screen is exclusive-ORed with its bit (R221). -/
theorem drawn_pixel (s : State) (x y : Reg) (n : Nibble) {p q : Nat} (hp : p < 64) (hq : q < 32) :
    pixelOf (drawn s x y n).1 p q = (s.pixel p q ^^ drawnBit s x y n p q) := blit_pixel _ _ _ _ _ _ hp hq

/-- The flag is 1 when a lit pixel meets a bit of the sprite (R221). -/
theorem drawn_flag_one (x y : Reg) (n : Nibble)
    (h : ∃ p q, p < 64 ∧ q < 32 ∧ s.pixel p q = true ∧ drawnBit s x y n p q = true) :
    flagByte (drawn s x y n).2 = 1 := by
  rw [(blit_collision ..).2 h, flagByte_true]

/-- The flag is 0 when no lit pixel meets one (R221). -/
theorem drawn_flag_zero (x y : Reg) (n : Nibble)
    (h : ∀ p q, p < 64 → q < 32 → s.pixel p q = true → drawnBit s x y n p q = false) :
    flagByte (drawn s x y n).2 = 0 := by
  rw [flagByte_eq_zero_iff, Bool.eq_false_iff]
  intro hflag
  obtain ⟨p, q, hp, hq, hlit, hbit⟩ := (blit_collision ..).1 hflag
  exact Bool.false_ne_true ((h p q hp hq hlit).symm.trans hbit)

/-- Settles O35: the bits are those of the sprite, clipped to its eight columns and `N` rows. -/
theorem drawSpritePixels : Obligations.DrawSpritePixels := by
  intro s x y n h
  refine ⟨_, drawnBit s x y n, exec_drw_ok s x y n (by omega), rfl, fun i j => drawnBit_inside x y n,
    fun p q => drawnBit_outside x y n, fun p q => drawn_pixel s x y n, fun hlit => ?_, fun hlit => ?_,
    fun r hr => State.getV_setFlag_ne _ _ r hr⟩
  · exact (State.getV_setFlag_self _ _).trans (drawn_flag_one x y n hlit)
  · exact (State.getV_setFlag_self _ _).trans (drawn_flag_zero x y n hlit)

/-! ### The second draw -/

/-- Two displays with the same pixels on the screen are the same (R32). -/
theorem disp_ext {d e : Vector Row 32} (h : ∀ p q, p < 64 → q < 32 → pixelOf d p q = pixelOf e p q) : d = e := by
  apply Vector.ext
  intro q hq
  apply BitVec.eq_of_getLsbD_eq
  intro j hj
  have hj : j < 64 := hj
  have hpixel := h (63 - j) q (by omega) hq
  have hcol : 63 - (63 - j) = j := by omega
  simpa only [pixelOf, dif_pos hq, hcol] using hpixel

theorem reads_congr {m k : Memory} {a n : Nat} (h : ∀ i, i < n → m.read (a + i) = k.read (a + i)) :
    m.reads a n = k.reads a n := by
  induction n generalizing a with
  | zero => rfl
  | succ n ih =>
    have htail : m.reads (a + 1) n = k.reads (a + 1) n := ih fun i hi => by
      rw [Nat.add_assoc, Nat.add_comm 1 i]
      exact h (i + 1) (Nat.succ_lt_succ hi)
    rw [Memory.reads, Memory.reads, htail, show m.read a = k.read a from h 0 (Nat.succ_pos n)]

/-- A draw of the same bytes at the same place puts the same bits on the pixels. -/
theorem drawnBit_congr {u : State} {x y : Reg} {n : Nibble} (hx : u.getV x = s.getV x) (hy : u.getV y = s.getV y)
    (hI : u.I = s.I) (hmem : ∀ i, i < n.toNat → u.byteAt (s.I.toNat + i) = s.byteAt (s.I.toNat + i)) (p q : Nat) :
    drawnBit u x y n p q = drawnBit s x y n p q := by
  rw [drawnBit, drawnBit, hx, hy, hI, reads_congr hmem]

/-- Settles O36: after the first draw a pixel is lit and under the sprite exactly when the draw has turned it on, and a
second exclusive OR takes the first one back. -/
theorem drawTwiceRestores : Obligations.DrawTwiceRestores := by
  intro s t u x y n hin h hdisp hx hy hI hmem
  rw [exec_drw_ok s x y n (by omega)] at h
  cases h
  have hbit := drawnBit_congr (n := n) hx hy hI hmem
  have hpixel {p q : Nat} (hp : p < 64) (hq : q < 32) : u.pixel p q = (s.pixel p q ^^ drawnBit u x y n p q) := by
    rw [pixel_eq_pixelOf, hdisp, hbit]; exact drawn_pixel s x y n hp hq
  have hfirst (p q : Nat) : u.pixel p q = pixelOf (drawn s x y n).1 p q := congrArg (pixelOf · p q) hdisp
  refine ⟨_, exec_drw_ok u x y n (by rw [hI]; omega), disp_ext fun p q hp hq => ?restored, ?collides, ?passes⟩
  case restored =>
    refine (drawn_pixel u x y n hp hq).trans ?_
    rw [hpixel hp hq, Bool.xor_assoc, Bool.xor_self, Bool.xor_false]
    rfl
  case collides =>
    rintro ⟨p, q, hp, hq, hoff, hon⟩
    have hlit : u.pixel p q = true := (hfirst p q).trans hon
    refine (State.getV_setFlag_self _ _).trans (drawn_flag_one x y n ⟨p, q, hp, hq, hlit, ?_⟩)
    rwa [hpixel hp hq, hoff, Bool.false_xor] at hlit
  case passes =>
    intro hnone
    refine (State.getV_setFlag_self _ _).trans (drawn_flag_zero x y n fun p q hp hq hlit => ?_)
    cases hs : s.pixel p q with
    | false =>
      have hoff : u.pixel p q = false := (hfirst p q).trans (hnone p q hp hq hs)
      exact absurd (hoff.symm.trans hlit) Bool.false_ne_true
    | true => rwa [hpixel hp hq, hs, Bool.true_xor, Bool.not_eq_true'] at hlit

/-! ### The document's sentence on the second draw -/

/-- Pixels (0, 0) to (3, 0) are lit: with `I` at the first font byte, 0xF0, they are the visible bits of a sprite. -/
def litCorner : State := State.reset.setDisp (State.reset.disp.set 0 0xF000000000000000)

/-- The blank screen after the sprite has turned the four pixels off, with a collision. -/
def clearedCorner : State := ((litCorner.setDisp blankDisplay).setV 15 1).setPc 0x202

theorem exec_drw_litCorner : exec (.drw 0 1 1) litCorner = .next clearedCorner := rfl

/-- On the blank screen the same sprite meets no lit pixel. -/
theorem exec_drw_clearedCorner :
    exec (.drw 0 1 1) clearedCorner = .next (((litCorner.setV 15 0).setPc 0x204)) := rfl

/-- Refutes O37: a sprite all of whose visible bits meet lit pixels turns them off (`exec_drw_litCorner`), so its second draw
does not collide (`exec_drw_clearedCorner`). -/
theorem not_secondDrawAlwaysCollides : ¬ Obligations.SecondDrawAlwaysCollides := by
  intro h
  have hchanged : clearedCorner.disp ≠ litCorner.disp := by decide
  have hflag := h litCorner clearedCorner clearedCorner _ 0 1 1 exec_drw_litCorner rfl rfl rfl rfl rfl rfl hchanged
    exec_drw_clearedCorner
  exact absurd hflag (by decide)

end Sys2Proof.Machine
end
